-- ==== Sys2Proof/Word.lean ====
section
/-! DEFINITION. The word types of the engine: message bytes, host words, lanes, and the two register banks made
of them (`00_scope.md` R6, R7, R9; `10_state.md` R16, R21). -/

namespace Sys2Proof

/-- A byte of the message, of the state or of the digest. -/
abbrev Byte := BitVec 8

/-- A value on the 32-bit host bus: a command word or a register's contents (R7 `BUS_BITS`, `CMD_BITS`). -/
abbrev Word := BitVec 32

/-- One lane of the permutation state (R6 `LANE_BITS`). -/
abbrev Lane := BitVec 64

/-- The 25 lanes `A[0..24]` (R16). The 200 bytes `S[0..199]` are the same bits, seen through
`Sys2Proof.Machine.byteAt`. -/
abbrev Lanes := Vector Lane 25

/-- The 32 bytes of the digest output register `DOUT` (R21). -/
abbrev DigestBytes := Vector Byte 32

end Sys2Proof
end

