-- ==== Sys2Proof/Syntax.lean ====
section
/-! DEFINITION. The commands (one constructor per row of `spec/opcode_table.json`), the padding mode they name, and
the four fields of format C, the one command format (`30_encoding.md` R49 to R55). -/

namespace Sys2Proof

/-- The padding mode of DIGEST: "two named modes, not a boolean" (R54, R76). -/
inductive Mode where
  | standard      -- `STANDARD`, SHA3
  | legacyKeccak  -- `LEGACY_KECCAK`
  deriving DecidableEq, Repr

/-- The engine's commands (R51). DIGEST has one row of the opcode table per mode (R54). -/
inductive Instr where
  | init
  | absorb (data : Byte)
  | digestSha3
  | digestKeccak
  | wipe
  deriving DecidableEq, Repr

/-- The fields of format C, most significant first (R50). -/
structure Fields where
  opcode : BitVec 4   -- bits 31:28
  rsv    : BitVec 19  -- bits 27:9
  mode   : BitVec 1   -- bit 8
  data   : BitVec 8   -- bits 7:0
  deriving DecidableEq, Repr

end Sys2Proof
end

