-- ==== Sys2Proof/WellFormed.lean ====
section
/-! DEFINITION. When the fields of a word form a command: the four checks of format C, taken from R50 and R51
("reserved; must be zero in every command", "must be zero in every other command"). An `Instr` carries only
its byte operand, so it is well-formed by its type; `Decode.lean` states the check on the fields it encodes to. -/

namespace Sys2Proof

/-- R51: the opcode is one of the four commands'. -/
def Fields.opcodeKnown (f : Fields) : Bool :=
  f.opcode == 0x1 || f.opcode == 0x2 || f.opcode == 0x3 || f.opcode == 0x4

/-- R50: `rsv` "must be zero in every command". -/
def Fields.reservedZero (f : Fields) : Bool := f.rsv == 0

/-- R50: `mode` is used by DIGEST only, and "must be zero in every other command". -/
def Fields.modeAllowed (f : Fields) : Bool := f.opcode == 0x3 || f.mode == 0

/-- R50: `data` is used by ABSORB only, and "must be zero in every other command". -/
def Fields.dataAllowed (f : Fields) : Bool := f.opcode == 0x2 || f.data == 0

/-- The fields pass all four checks. -/
def Fields.wellFormed (f : Fields) : Bool :=
  f.opcodeKnown && f.reservedZero && f.modeAllowed && f.dataAllowed

end Sys2Proof
end

