-- ==== Sys2Proof/Decode.lean ====
section
/-! DEFINITION. Decoding of a 32-bit command word, total and rejecting by name (`30_encoding.md` R49 to R58), the
legality predicate exactly as R57 writes it, the rows of `spec/opcode_table.json`, and the encoder. A command word
is the value of one bus write; it is never stored, so it has no byte order in a memory (R38 (c), R46). -/

namespace Sys2Proof

/-- Why a word is no command (R57's enumeration). The engine records none of it: any illegal word sets `ILL`
and nothing else (R119). -/
inductive Illegal where
  | reservedOpcode  -- "opcode 0x0 or 0x5 to 0xF with any other bits"
  | reservedBits    -- "any word with a non-zero `rsv`"
  | unusedMode      -- "INIT or WIPE with `mode` ... non-zero", "ABSORB with `mode = 1`"
  | unusedData      -- "INIT or WIPE with ... `data` non-zero", "DIGEST with `data != 0`"
  deriving DecidableEq, Repr

/-- The fields of a word (R50). -/
def Fields.ofWord (w : Word) : Fields where
  opcode := w.extractLsb' 28 4
  rsv    := w.extractLsb' 9 19
  mode   := w.extractLsb' 8 1
  data   := w.extractLsb' 0 8

/-- The word made of its fields (R50). -/
def Fields.toWord (f : Fields) : Word := f.opcode ++ f.rsv ++ f.mode ++ f.data

/-- R57, as it is written there. -/
def legal (w : Word) : Bool :=
  w == 0x10000000#32
    || (w &&& 0xFFFFFF00#32) == 0x20000000#32
    || (w &&& 0xFFFFFEFF#32) == 0x30000000#32
    || w == 0x40000000#32

/-- A command without operands: its unused fields must be zero (R52, R55). -/
def decodePlain (f : Fields) (i : Instr) : Except Illegal Instr :=
  if f.mode ≠ 0 then .error .unusedMode
  else if f.data ≠ 0 then .error .unusedData
  else .ok i

/-- ABSORB (R53): `data` is the message byte, `mode` must be zero. -/
def decodeAbsorb (f : Fields) : Except Illegal Instr :=
  if f.mode ≠ 0 then .error .unusedMode else .ok (.absorb f.data)

/-- DIGEST (R54): `mode` selects the named mode, `data` must be zero. -/
def decodeDigest (f : Fields) : Except Illegal Instr :=
  if f.data ≠ 0 then .error .unusedData
  else if f.mode = 0 then .ok .digestSha3
  else .ok .digestKeccak

/-- The decoder of R51 to R57, total: "every 32-bit value is either one of the four commands or illegal". -/
def decode (w : Word) : Except Illegal Instr :=
  let f := Fields.ofWord w
  if f.rsv ≠ 0 then .error .reservedBits
  else if f.opcode = 0x1 then decodePlain f .init
  else if f.opcode = 0x2 then decodeAbsorb f
  else if f.opcode = 0x3 then decodeDigest f
  else if f.opcode = 0x4 then decodePlain f .wipe
  else .error .reservedOpcode

/-- The fields of each command's encoding (R52 to R55). -/
def Instr.fields : Instr → Fields
  | .init         => { opcode := 0x1, rsv := 0, mode := 0, data := 0 }
  | .absorb d     => { opcode := 0x2, rsv := 0, mode := 0, data := d }
  | .digestSha3   => { opcode := 0x3, rsv := 0, mode := 0, data := 0 }
  | .digestKeccak => { opcode := 0x3, rsv := 0, mode := 1, data := 0 }
  | .wipe         => { opcode := 0x4, rsv := 0, mode := 0, data := 0 }

/-- An instruction is well-formed when the fields it encodes to pass the checks of format C. -/
abbrev Instr.WellFormed (i : Instr) : Prop := i.fields.wellFormed = true

/-- The command word of an instruction (R52 to R55). -/
def encode (i : Instr) : Word := i.fields.toWord

/-- A row of `spec/opcode_table.json`: a word belongs to it when its bits under the mask are the pattern. -/
structure OpcodeRow where
  mnemonic : String
  pattern  : Word
  mask     : Word
  deriving DecidableEq, Repr

/-- The five rows of `spec/opcode_table.json`. -/
def opcodeRows : List OpcodeRow :=
  [ ⟨"INIT",          0x10000000#32, 0xFFFFFFFF#32⟩,
    ⟨"ABSORB",        0x20000000#32, 0xFFFFFF00#32⟩,
    ⟨"DIGEST.SHA3",   0x30000000#32, 0xFFFFFFFF#32⟩,
    ⟨"DIGEST.KECCAK", 0x30000100#32, 0xFFFFFFFF#32⟩,
    ⟨"WIPE",          0x40000000#32, 0xFFFFFFFF#32⟩ ]

/-- The word belongs to the row. -/
def OpcodeRow.accepts (r : OpcodeRow) (w : Word) : Bool := (w &&& r.mask) == r.pattern

/-- The row of the table an instruction stands for. -/
def Instr.mnemonic : Instr → String
  | .init         => "INIT"
  | .absorb _     => "ABSORB"
  | .digestSha3   => "DIGEST.SHA3"
  | .digestKeccak => "DIGEST.KECCAK"
  | .wipe         => "WIPE"

/-- The instruction the decoder reads from the low `nbits` bits of `w`, every higher bit taken as 0. -/
def decodeTableWord (nbits w : Nat) : Option Instr :=
  (decode (BitVec.ofNat 32 (w % 2 ^ nbits))).toOption

end Sys2Proof
end

