-- ==== Sys2Proof/Config.lean ====
section
/-! DEFINITION. The fixed constants of the engine (`00_scope.md` R6, R7) and the one open parameter, the platform
base address of the register block (`92_eei_decisions.md` D2, `93_implementation_defined.md` U10). -/

namespace Sys2Proof

/-- R6 `STATE_BYTES`: "size of the permutation state in bytes". -/
abbrev Config.stateBytes : Nat := 200

/-- R6 `LANES`. -/
abbrev Config.lanes : Nat := 25

/-- R6 `RATE`: the block length in bytes. -/
abbrev Config.rate : Nat := 136

/-- R6 `CAPACITY`. -/
abbrev Config.capacity : Nat := 64

/-- R6 `DIGEST_LEN`. -/
abbrev Config.digestLen : Nat := 32

/-- R6 `NR`: rounds of the permutation. -/
abbrev Config.rounds : Nat := 24

/-- R7 `REG_BYTES`: size of the register block. -/
abbrev Config.regBytes : Nat := 64

/-- R7, R48 `KSE_BASE`: the platform base address of the register block, which the spec leaves OPEN (D2, U10).
It has no body, so nothing can be proved of its value (log entry 7). That it is a natural number with no bound is a DESIGN
CHOICE: R48 leaves the width of the platform's addresses to the platform (log entry 15). -/
opaque Config.kseBase : Nat

end Sys2Proof
end

