-- ==== Sys2Proof/Machine/State.lean ====
section
/-! DEFINITION. The state of the system as plain data: the engine's registers, all of `10_state.md` R15, and the
host agent's program and what it got back (`45_sequencer.md` R111, R112); the reasons a step can stop; the state
after hardware reset (`70_reset_and_hazards.md` R133). -/

namespace Sys2Proof.Machine

/-- The size of a host access (R39). Only `word`, 32 bits, is legal. -/
inductive Width where
  | byte   -- 8 bits
  | half   -- 16 bits
  | word   -- 32 bits
  | dword  -- 64 bits
  | burst  -- several beats
  deriving DecidableEq, Repr

/-- One act of the host (R36): a register read, a register write or hardware reset. `off` is the byte offset from
`KSE_BASE`; an offset outside the block is one "that the platform routes to the engine" (R40). The data of a write is
the 32 bits of the bus; a write of another width is rejected whatever its data is (R39). -/
inductive Access where
  | read  (width : Width) (off : Nat)
  | write (width : Width) (off : Nat) (value : Word)
  | reset
  deriving DecidableEq, Repr

/-- What the host gets back from one access: a read's value, the normal completion of a write (R119, R120), or the
error response of a rejected access (R121). -/
inductive Response where
  | data (value : Word)
  | done
  | busError
  deriving DecidableEq, Repr

/-- The whole state. Field by field: `10_state.md` R15, then R112 for the host's side. -/
structure State where
  A         : Lanes          -- the permutation state, `A[0..24]` = `S[0..199]` (R16)
  pos       : BitVec 8       -- the cursor (R17)
  live      : Bool           -- `LIVE`: a context exists (R19)
  TA        : Lanes          -- the scratch copy, `TA[0..24]` = `T[0..199]` (R20)
  dout      : DigestBytes    -- the digest output register `DOUT[0..31]` (R21)
  dvalid    : Bool           -- `DVALID`: `DOUT` holds a digest (R21)
  ill       : Bool           -- `ILL`, sticky (R22)
  uaw       : Bool           -- `UAW`, sticky (R22)
  rnd       : BitVec 5       -- the round counter (R23)
  script    : List Access    -- the host accesses still to be made, next one first (R111, R112)
  responses : List Response  -- what the accesses made so far returned, oldest first (R112)
  deriving DecidableEq, Repr

/-- Why a step stops. The spec's own faults (`ILL`, `UAW`, `BusError`) are no stops: they are flags and a bus
response (R118), and the machine goes on. -/
inductive Fault where
  /-- Raised by ABSORB and DIGEST on a live engine whose cursor is 136 to 255. The spec calls that state
  unreachable and gives it no behaviour (`93_implementation_defined.md` U4: "`stuck`"). Safe: the model stops where no
  effect is defined. -/
  | cursorOutOfRange
  deriving DecidableEq, Repr

/-- Why a step has no meaning. -/
inductive Refusal where
  /-- Raised only by a rejected arm of `exec`, for an instruction that has no meaning yet (no arm is rejected at
  present). Safe: the model stops. -/
  | notModelled (mnemonic : String)
  deriving DecidableEq, Repr

/-- The 25 lanes, all zero. -/
def zeroLanes : Lanes := Vector.replicate 25 0

/-- The 32 digest bytes, all zero. -/
def zeroDigest : DigestBytes := Vector.replicate 32 0

/-- R133: hardware reset puts every register to zero. No access is pending and none has been made. -/
def State.reset : State where
  A         := zeroLanes
  pos       := 0
  live      := false
  TA        := zeroLanes
  dout      := zeroDigest
  dvalid    := false
  ill       := false
  uaw       := false
  rnd       := 0
  script    := []
  responses := []

end Sys2Proof.Machine
end

