-- ==== Sys2Proof/Machine/Flags.lean ====
section
/-! DEFINITION. The flags: how a fault is recorded, which is the engine's whole exception mechanism
(`60_exceptions.md` R118 to R125), and how the flags show in `STATUS` (`10_state.md` R31). -/

namespace Sys2Proof.Machine

/-- The faults that are recorded in the engine (R118). -/
inductive RecordedFault where
  | ill  -- illegal command word (R119)
  | uaw  -- use after wipe (R120)
  deriving DecidableEq, Repr

/-- `raise ILL`, `raise UAW` (R11): the flag is set and nothing else changes; no control is transferred, nothing is
saved, and there is no return (R124, R125). This is the engine's one shared way of taking an exception. -/
def recordFault (f : RecordedFault) (s : State) : State :=
  match f with
  | .ill => { s with ill := true }
  | .uaw => { s with uaw := true }

/-- R31: `STATUS`, bit 0 `LIVE`, bit 1 `DVALID`, bit 2 `ILL`, bit 3 `UAW`, bits 31:4 zero. -/
def statusWord (s : State) : Word :=
  (BitVec.ofBool s.uaw ++ BitVec.ofBool s.ill ++ BitVec.ofBool s.dvalid ++ BitVec.ofBool s.live).setWidth 32

end Sys2Proof.Machine
end

