-- ==== Sys2Proof/Machine/Lanes.lean ====
section
/-! DEFINITION. The two views of a 1600-bit bank, lanes and bytes, over one storage (`10_state.md` R16), and the byte
operations of the command rules. Everything is little-endian (`20_memory.md` R38). -/

namespace Sys2Proof.Machine

/-- Index of a byte of a bank. -/
abbrev ByteIndex := Fin 200

/-- Index of a byte of the rate part, the only bytes input and padding touch (R13 "rate"). -/
abbrev RateIndex := Fin 136

/-- A rate byte as a byte of the bank. -/
def RateIndex.byte (r : RateIndex) : ByteIndex := ⟨r.val, by have := r.isLt; omega⟩

/-- The last rate byte, 135. -/
def lastRateByte : ByteIndex := ⟨135, by decide⟩

/-- R16: lane `[x, y]` is `A[x + 5*y]`; index arithmetic on `x` and `y` is modulo 5 (the arithmetic of `Fin 5`). -/
def laneAt (A : Lanes) (x y : Fin 5) : Lane := A[x.val + 5 * y.val]'(by omega)

/-- The bank whose lane `[x, y]` is `f x y`: "lane index `i` has column `x = i mod 5` and row `y = i div 5`" (R16). -/
def lanesOf (f : Fin 5 → Fin 5 → Lane) : Lanes :=
  Vector.ofFn fun i : Fin 25 => f ⟨i.val % 5, by omega⟩ ⟨i.val / 5, by omega⟩

/-- R16: `S[8*i + k] = A[i][8*k+7 : 8*k]`. -/
def byteAt (A : Lanes) (k : ByteIndex) : Byte :=
  (A[k.val / 8]'(by have := k.isLt; omega)).extractLsb' (8 * (k.val % 8)) 8

/-- Byte `j` of a lane replaced by `v`, its other seven bytes kept. -/
def replaceByte (l : Lane) (j : Nat) (v : Byte) : Lane :=
  (l &&& ~~~((0xFF : Lane) <<< (8 * j))) ||| (v.setWidth 64 <<< (8 * j))

/-- R16: "Writing `S[k] <- v` changes 8 bits of lane `k div 8` and nothing else". -/
def setByte (A : Lanes) (k : ByteIndex) (v : Byte) : Lanes :=
  A.set (k.val / 8)
    (replaceByte (A[k.val / 8]'(by have := k.isLt; omega)) (k.val % 8) v)
    (by have := k.isLt; omega)

/-- `S[k] <- S[k] ^ v`, the way every input and padding byte enters a bank (R66 line 1, R75 lines 3 and 4). -/
@[irreducible] def xorByte (A : Lanes) (k : ByteIndex) (v : Byte) : Lanes := setByte A k (byteAt A k ^^^ v)

/-- The bank whose byte `k` is `f k`: byte `8*i` is the least significant byte of lane `i` (R16). -/
def lanesOfBytes (f : ByteIndex → Byte) : Lanes :=
  Vector.ofFn fun i : Fin 25 =>
    (f ⟨8 * i.val + 7, by omega⟩ ++ f ⟨8 * i.val + 6, by omega⟩ ++ f ⟨8 * i.val + 5, by omega⟩
      ++ f ⟨8 * i.val + 4, by omega⟩ ++ f ⟨8 * i.val + 3, by omega⟩ ++ f ⟨8 * i.val + 2, by omega⟩
      ++ f ⟨8 * i.val + 1, by omega⟩ ++ f ⟨8 * i.val, by omega⟩ : BitVec 64)

/-- Bytewise exclusive-or of 200 bytes into a bank. -/
@[irreducible] def xorBytes (A : Lanes) (f : ByteIndex → Byte) : Lanes := lanesOfBytes fun k => byteAt A k ^^^ f k

end Sys2Proof.Machine
end

