-- ==== Sys2Proof/Machine/Keccak.lean ====
section
/-! DEFINITION. The permutation Keccak-f[1600] (`44_permutation.md` R96 to R104): five step mappings, their tables,
the round and the 24 rounds. -/

namespace Sys2Proof.Machine

/-- R9 `ROL64`: cyclic rotation toward the most significant bit; `ROL64(v, 0) = v`. -/
def rol64 (v : Lane) (n : Nat) : Lane := if n = 0 then v else (v <<< n) ||| (v >>> (64 - n))

/-- R98: `C[x]`, the parity of column `x`. -/
def columnParity (A : Lanes) (x : Fin 5) : Lane :=
  laneAt A x 0 ^^^ laneAt A x 1 ^^^ laneAt A x 2 ^^^ laneAt A x 3 ^^^ laneAt A x 4

/-- R98: `D[x] = C[(x+4) mod 5] ^ ROL64(C[(x+1) mod 5], 1)`. -/
def thetaEffect (A : Lanes) (x : Fin 5) : Lane :=
  columnParity A (x + 4) ^^^ rol64 (columnParity A (x + 1)) 1

/-- R98, theta. -/
def theta (A : Lanes) : Lanes := lanesOf fun x y => laneAt A x y ^^^ thetaEffect A x

/-- R99: the rotation offsets by lane index `x + 5*y`. -/
def rhoTable : Vector Nat 25 :=
  #v[ 0,  1, 62, 28, 27,
     36, 44,  6, 55, 20,
      3, 10, 43, 25, 39,
     41, 45, 15, 21,  8,
     18,  2, 61, 56, 14]

/-- R99: `RHO[x][y]`. -/
def rhoOffset (x y : Fin 5) : Nat := rhoTable[x.val + 5 * y.val]'(by omega)

/-- R99, rho. -/
def rho (A : Lanes) : Lanes := lanesOf fun x y => rol64 (laneAt A x y) (rhoOffset x y)

/-- R100, pi, in the form `A'[x,y] = A[(x + 3*y) mod 5, x]`. -/
def piMap (A : Lanes) : Lanes := lanesOf fun x y => laneAt A (x + 3 * y) x

/-- R101, chi. -/
def chi (A : Lanes) : Lanes :=
  lanesOf fun x y => laneAt A x y ^^^ (~~~ laneAt A (x + 1) y &&& laneAt A (x + 2) y)

/-- R103: the round constants. -/
def roundConstants : Vector Lane 24 :=
  #v[0x0000000000000001#64, 0x0000000000008082#64, 0x800000000000808A#64, 0x8000000080008000#64,
     0x000000000000808B#64, 0x0000000080000001#64, 0x8000000080008081#64, 0x8000000000008009#64,
     0x000000000000008A#64, 0x0000000000000088#64, 0x0000000080008009#64, 0x000000008000000A#64,
     0x000000008000808B#64, 0x800000000000008B#64, 0x8000000000008089#64, 0x8000000000008003#64,
     0x8000000000008002#64, 0x8000000000000080#64, 0x000000000000800A#64, 0x800000008000000A#64,
     0x8000000080008081#64, 0x8000000000008080#64, 0x0000000080000001#64, 0x8000000080008008#64]

/-- R102, iota: only lane `[0,0]` changes. -/
def iota (A : Lanes) (i : Fin 24) : Lanes := A.set 0 (A[0] ^^^ roundConstants[i])

/-- R97: the five steps, theta first. -/
@[irreducible] def keccakRound (A : Lanes) (i : Fin 24) : Lanes := iota (chi (piMap (rho (theta A)))) i

/-- R96: 24 rounds, round index 0 to 23 in increasing order. -/
@[irreducible] def keccakF (A : Lanes) : Lanes := (List.finRange 24).foldl keccakRound A

end Sys2Proof.Machine
end

