-- ==== Sys2Proof/Machine/Operands.lean ====
section
/-! DEFINITION. The operand forms of the command set, which are two (`30_encoding.md` R56): the message byte of ABSORB,
used as it is, and the mode of DIGEST, which selects the first padding byte (`42_digest.md` R76) and so the padding
block (R77). -/

namespace Sys2Proof.Machine

/-- R76: the first padding byte, `PAD_STANDARD` or `PAD_LEGACY`. -/
def padByte : Mode → Byte
  | .standard     => 0x06
  | .legacyKeccak => 0x01

/-- R6 `PAD_FINAL`: the bit set in the last rate byte, in both modes. -/
def padFinal : Byte := 0x80

/-- R77: the padding block `Pad(r, p)`, followed by the 64 zero bytes of the capacity part. -/
def padBlock (r : Nat) (p : Byte) : ByteIndex → Byte := fun k =>
  if k.val = r ∧ k.val = 135 then p ||| padFinal
  else if k.val = r then p
  else if k.val = 135 then padFinal
  else 0x00

end Sys2Proof.Machine
end

