-- ==== Sys2Proof/Machine/Ops.lean ====
section
/-! DEFINITION. The named operations the command meanings are made of: permuting a bank, the guard every hash command
passes, clearing the context, and hardware reset. Taking an exception is `recordFault` of `Flags.lean`; there is no
return from one (`60_exceptions.md` R125). -/

namespace Sys2Proof.Machine

/-- The bank a permutation runs on: `A` for ABSORB, `TA` for DIGEST (R113). -/
inductive Bank where
  | state
  | scratch
  deriving DecidableEq, Repr

/-- The lanes of a bank. -/
def State.bank (s : State) : Bank → Lanes
  | .state   => s.A
  | .scratch => s.TA

/-- The lanes of a bank replaced. -/
def State.withBank (s : State) (b : Bank) (X : Lanes) : State :=
  match b with
  | .state   => { s with A := X }
  | .scratch => { s with TA := X }

/-- One whole permutation of a bank. The round counter is 0 when it is done (R113); R114 lets a command use `KeccakF`
as one function, and `Sequencer.lean` gives the round-by-round form. -/
def permuteBank (b : Bank) (s : State) : State := { s.withBank b (keccakF (s.bank b)) with rnd := 0 }

/-- What ABSORB and DIGEST do before their own effect. With `LIVE = 0` the command is refused: `UAW` is set and
nothing else happens (R107 line 5, R120). On a live context the cursor indexes the rate part (R29 (a)); a live cursor
outside it is the unreachable state U4 leaves stuck. -/
def onLiveContext (s : State) (effect : RateIndex → State) : Host.Outcome State Fault Refusal :=
  if s.live then
    if h : s.pos.toNat < 136 then .next (effect ⟨s.pos.toNat, h⟩)
    else .fault .cursorOutOfRange
  else .next (recordFault .uaw s)

/-- Every hash-relevant register zeroed and `LIVE` set as given: the common part of INIT and WIPE (R63, R91). `rnd` is
zero afterwards "whatever [it] held before" (R92, R134). -/
def clearContext (live : Bool) (s : State) : State :=
  { s with
    A      := zeroLanes
    pos    := 0
    TA     := zeroLanes
    dout   := zeroDigest
    dvalid := false
    live   := live
    rnd    := 0 }

/-- Hardware reset (R133, R146): every register of the engine at its reset value, from any state. The host's program
and what it got back are the host's and stay. -/
def hardReset (s : State) : State :=
  { State.reset with script := s.script, responses := s.responses }

/-- The access is answered. -/
def respond (r : Response) (s : State) : State := { s with responses := s.responses ++ [r] }

end Sys2Proof.Machine
end

