-- ==== Sys2Proof/Machine/Absorb.lean ====
section
/-! DEFINITION. ABSORB (`41_absorb.md` R66): one message byte into the state at the cursor. -/

namespace Sys2Proof.Machine

/-- R66 lines 1 to 5, with the cursor at `r`. The cursor reaches 136 only between lines 2 and 5. -/
def absorbAt (d : Byte) (r : RateIndex) (s : State) : State :=
  let s1 := { s with A := xorByte s.A r.byte d }
  let s2 := { s1 with pos := s1.pos + 1 }
  if s2.pos = 136 then { permuteBank .state s2 with pos := 0 } else s2

/-- ABSORB (R66), refused with `UAW` when no context exists (R120). -/
def execAbsorb (d : Byte) (s : State) : Host.Outcome State Fault Refusal :=
  onLiveContext s fun r => absorbAt d r s

end Sys2Proof.Machine
end

