-- ==== Sys2Proof/Machine/Context.lean ====
section
/-! DEFINITION. The context family: INIT (`40_init.md` R63, R64) and WIPE (`43_wipe.md` R91, R92). Both are legal in
every state and run no permutation. -/

namespace Sys2Proof.Machine

/-- INIT (R63): a fresh context. `ILL` and `UAW` are sticky and stay. -/
def execInit (s : State) : Host.Outcome State Fault Refusal := .next (clearContext true s)

/-- WIPE (R91): the context overwritten with zero and ended. `ILL` and `UAW` are sticky and stay. -/
def execWipe (s : State) : Host.Outcome State Fault Refusal := .next (clearContext false s)

end Sys2Proof.Machine
end

