-- ==== Sys2Proof/Machine/Digest.lean ====
section
/-! DEFINITION. DIGEST in its two modes (`42_digest.md` R75 to R90): "one finalize operation parameterized by a
padding-byte selector". -/

namespace Sys2Proof.Machine

/-- R75 line 1: the copy. -/
def copyToScratch (s : State) : State := { s with TA := s.A }

/-- R75 lines 2 to 4: the first padding byte at the cursor, then the last bit of the padding in byte 135. -/
def padScratch (m : Mode) (r : RateIndex) (s : State) : State :=
  { s with TA := xorByte (xorByte s.TA r.byte (padByte m)) lastRateByte padFinal }

/-- The first 32 bytes of a bank (R75 line 6, R83). -/
@[irreducible] def digestOf (X : Lanes) : DigestBytes :=
  Vector.ofFn fun k : Fin 32 => byteAt X ⟨k.val, by omega⟩

/-- R75 lines 6 and 7: extraction. -/
def extractDigest (s : State) : State := { s with dout := digestOf s.TA, dvalid := true }

/-- R75 line 8, R84: the copy wiped. -/
def wipeScratch (s : State) : State := { s with TA := zeroLanes }

/-- R75 lines 1 to 8, with the cursor at `r`. -/
def digestAt (m : Mode) (r : RateIndex) (s : State) : State :=
  wipeScratch (extractDigest (permuteBank .scratch (padScratch m r (copyToScratch s))))

/-- DIGEST in mode `m`, refused with `UAW` when no context exists (R120). -/
def digestIn (m : Mode) (s : State) : Host.Outcome State Fault Refusal :=
  onLiveContext s fun r => digestAt m r s

/-- DIGEST.SHA3 (R75, R76): first padding byte 0x06. -/
def execDigestSha3 (s : State) : Host.Outcome State Fault Refusal := digestIn .standard s

/-- DIGEST.KECCAK (R75, R76): first padding byte 0x01. -/
def execDigestKeccak (s : State) : Host.Outcome State Fault Refusal := digestIn .legacyKeccak s

end Sys2Proof.Machine
end

