-- ==== Sys2Proof/Machine/Dispatch.lean ====
section
/-! DEFINITION. The dispatch of a decoded command to its meaning (`45_sequencer.md` R107 lines 2 to 7). -/

namespace Sys2Proof.Machine

def exec (i : Instr) (s : State) : Host.Outcome State Fault Refusal :=
  match i with
  | .init => Sys2Proof.Machine.execInit s
  | .absorb d => Sys2Proof.Machine.execAbsorb d s
  | .digestSha3 => Sys2Proof.Machine.execDigestSha3 s
  | .digestKeccak => Sys2Proof.Machine.execDigestKeccak s
  | .wipe => Sys2Proof.Machine.execWipe s

end Sys2Proof.Machine
end

