-- ==== Sys2Proof/Machine/Command.lean ====
section
/-! DEFINITION. What a command word does: `Exec(w)` (`45_sequencer.md` R107), "the engine's whole step function". -/

namespace Sys2Proof.Machine

/-- `Exec(w)` (R107): an illegal word sets `ILL` and is not executed in any part (R119); a legal one is. -/
def execWord (w : Word) (s : State) : Host.Outcome State Fault Refusal :=
  match decode w with
  | .error _ => .next (recordFault .ill s)
  | .ok i    => exec i s

/-- The commands of a list, in order; it ends early where one does not answer a next state. -/
def execAll : List Instr → State → Host.Outcome State Fault Refusal
  | [], s => .next s
  | i :: is, s =>
    match exec i s with
    | .next t    => execAll is t
    | .fault f   => .fault f
    | .refused r => .refused r

end Sys2Proof.Machine
end

