-- ==== Sys2Proof/Machine/Bus.lean ====
section
/-! DEFINITION. The host register interface (`20_memory.md` R35 to R44; `10_state.md` R30 to R33): the register map, which
accesses are legal, what a read returns, what a write does, and the effect of one host access. -/

namespace Sys2Proof.Machine

/-- The registers of the block (R37). -/
inductive Reg where
  | cmd
  | status
  | blockSize
  | digestSize
  | dout (j : Fin 8)
  deriving DecidableEq, Repr

/-- R37: the offset of a register. -/
def Reg.offset : Reg → Nat
  | .cmd        => 0x00
  | .status     => 0x04
  | .blockSize  => 0x08
  | .digestSize => 0x0C
  | .dout j     => 0x10 + 4 * j.val

/-- R37: the register at an offset; `none` for 0x30 to 0x3F and everything outside the block (R40 (a)). -/
def regAt (off : Nat) : Option Reg :=
  if off = 0x00 then some .cmd
  else if off = 0x04 then some .status
  else if off = 0x08 then some .blockSize
  else if off = 0x0C then some .digestSize
  else if h : 0x10 ≤ off ∧ off < 0x30 ∧ off % 4 = 0 then some (.dout ⟨(off - 0x10) / 4, by omega⟩)
  else none

/-- R39, R40 (a), in the order of R122: the register an access reaches, or `none` for a bus error. -/
def selectReg (width : Width) (off : Nat) : Option Reg :=
  if width = .word ∧ off % 4 = 0 then regAt off else none

/-- R33: `DOUTj[8*k+7 : 8*k] = DOUT[4*j + k]`. -/
def doutWord (d : DigestBytes) (j : Fin 8) : Word :=
  d[4 * j.val + 3]'(by omega) ++ d[4 * j.val + 2]'(by omega) ++ d[4 * j.val + 1]'(by omega)
    ++ d[4 * j.val]'(by omega)

/-- What a read of a register returns (R37). -/
def readReg (s : State) : Reg → Word
  | .cmd        => 0x00000000
  | .status     => statusWord s
  | .blockSize  => BitVec.ofNat 32 Config.rate
  | .digestSize => BitVec.ofNat 32 Config.digestLen
  | .dout j     => doutWord s.dout j

/-- `RegRead(off)` (R36, R41): no side effect; a rejected read delivers no data (R121). -/
def regRead (width : Width) (off : Nat) (s : State) : State :=
  match selectReg width off with
  | some r => respond (.data (readReg s r)) s
  | none   => respond .busError s

/-- The write of a command has completed (R42: with the command), or the machine has stopped. -/
def completeWrite (o : Host.Outcome State Fault Refusal) : Host.Outcome State Fault Refusal :=
  match o with
  | .next t    => .next (respond .done t)
  | .fault f   => .fault f
  | .refused r => .refused r

/-- `RegWrite(off, v)` (R36): a write to `CMD` executes the word (R30); every other write is a bus error (R40). -/
def regWrite (width : Width) (off : Nat) (v : Word) (s : State) : Host.Outcome State Fault Refusal :=
  match selectReg width off with
  | some .cmd => completeWrite (execWord v s)
  | _         => .next (respond .busError s)

/-- The effect of one host access, already taken off the host's list. -/
def performAccess (a : Access) (s : State) : Host.Outcome State Fault Refusal :=
  match a with
  | .read width off    => .next (regRead width off s)
  | .write width off v => regWrite width off v s
  | .reset             => .next (hardReset s)

/-- The host access that writes a word to `CMD`. -/
def commandWrite (w : Word) : Access := .write .word Reg.cmd.offset w

/-- The platform address of an offset (R48). DESIGN CHOICE (log entry 15): R48 leaves open "how wide the platform's addresses
are"; here they are natural numbers with no bound, so the sum never wraps. No step uses it. -/
def platformAddress (off : Nat) : Nat := Config.kseBase + off

/-- The offset of a platform address at or above the block's base; the engine sees offsets only (R7, R48).
Addresses have no bound, as in `platformAddress` (DESIGN CHOICE, log entry 15). No step uses it. -/
def offsetOfAddress (addr : Nat) : Option Nat :=
  if Config.kseBase ≤ addr then some (addr - Config.kseBase) else none

/-- R112: "the list of values the reads returned". -/
def State.readValues (s : State) : List Word :=
  s.responses.filterMap fun
    | .data v   => some v
    | .done     => none
    | .busError => none

end Sys2Proof.Machine
end

