-- ==== Sys2Proof/Machine/Step.lean ====
section
/-! DEFINITION. One step of the system: the host's next access takes effect, whole (`20_memory.md` R36, R42, R44). With
no access left the engine is idle and holds its state (`60_exceptions.md` R132, `70_reset_and_hazards.md` R135). -/

namespace Sys2Proof.Machine

def step (s : State) : Host.Outcome State Fault Refusal :=
  match s.script with
  | []        => .next s
  | a :: rest => performAccess a { s with script := rest }

/-- `s` with the write of `w`'s low `nbits` bits to `CMD` as the host's next access, so that the next step runs it. -/
def State.withFetchWord (s : State) (nbits w : Nat) : State :=
  { s with script := commandWrite (BitVec.ofNat 32 (w % 2 ^ nbits)) :: s.script }

end Sys2Proof.Machine
end

