-- ==== Sys2Proof/Machine/Assembler.lean ====
section
/-! DEFINITION. The command notation of the spec: mnemonics, pseudo-commands and their expansions, host-script lines
(`30_encoding.md` R59 to R62). It turns a written program into the host's list of accesses; the engine knows nothing
of it. A program is data here (lines, not text): operands are given as characters where the notation has a quoted
text or hexadecimal digits. -/

namespace Sys2Proof.Machine

/-- An ASCII character as a message byte (R59, R60); `none` for a character that is no ASCII. -/
def asciiByte (c : Char) : Option Byte :=
  if c.toNat < 128 then some (BitVec.ofNat 8 c.toNat) else none

/-- The value of a hexadecimal digit. -/
def hexDigit (c : Char) : Option Nat :=
  if '0'.toNat ≤ c.toNat ∧ c.toNat ≤ '9'.toNat then some (c.toNat - '0'.toNat)
  else if 'a'.toNat ≤ c.toNat ∧ c.toNat ≤ 'f'.toNat then some (c.toNat - 'a'.toNat + 10)
  else if 'A'.toNat ≤ c.toNat ∧ c.toNat ≤ 'F'.toNat then some (c.toNat - 'A'.toNat + 10)
  else none

/-- R60 `ABSORBX`: "two hex digits each, left to right"; `none` for an odd digit or no digit. -/
def hexBytes : List Char → Option (List Byte)
  | []          => some []
  | [_]         => none
  | a :: b :: r =>
    match hexDigit a, hexDigit b, hexBytes r with
    | some x, some y, some bs => some (BitVec.ofNat 8 (16 * x + y) :: bs)
    | _, _, _ => none

/-- R60 `ABSORBS`: one byte per character. -/
def textBytes : List Char → Option (List Byte)
  | []     => some []
  | c :: r =>
    match asciiByte c, textBytes r with
    | some b, some bs => some (b :: bs)
    | _, _ => none

/-- One line of assembly (R59, R60). -/
inductive AsmLine where
  | command (i : Instr)                    -- `INIT`, `ABSORB <byte>`, `DIGEST.SHA3`, `DIGEST.KECCAK`, `WIPE`
  | dotWord (value : Word)                 -- `.word <value>`
  | digest                                 -- `DIGEST`
  | absorbs (text : List Char)             -- `ABSORBS "<text>"`
  | absorbx (digits : List Char)           -- `ABSORBX <hex digits>`
  | absorbn (b : Byte) (n : Nat)           -- `ABSORBN <byte>, <n>`
  | updateText (text : List Char)          -- `UPDATE "<text>"`
  | updateHex (digits : List Char)         -- `UPDATE <hex digits>`
  | construct                              -- `CONSTRUCT`
  | constructText (text : List Char)       -- `CONSTRUCT "<text>"`
  | dispose                                -- `DISPOSE`
  deriving DecidableEq, Repr

/-- The ABSORB words of a buffer. -/
def absorbWords (bs : List Byte) : List Word := bs.map fun b => encode (.absorb b)

/-- R59, R60: the words a line stands for. -/
def AsmLine.expand : AsmLine → Option (List Word)
  | .command i       => some [encode i]
  | .dotWord v       => some [v]
  | .digest          => some [encode .digestSha3]
  | .absorbs t       => (textBytes t).map absorbWords
  | .absorbx h       => (hexBytes h).map absorbWords
  | .absorbn b n     => some (absorbWords (List.replicate n b))
  | .updateText t    => (textBytes t).map absorbWords
  | .updateHex h     => (hexBytes h).map absorbWords
  | .construct       => some [encode .init]
  | .constructText t => (textBytes t).map fun bs => encode .init :: absorbWords bs
  | .dispose         => some [encode .wipe]

/-- One line of a host script (R61). -/
inductive ScriptLine where
  | write (r : Reg) (value : Word)  -- `W <reg>, <value>`
  | read (r : Reg)                  -- `R <reg>`
  | asm (line : AsmLine)            -- a mnemonic alone stands for `W CMD, <its word>`
  | reset                           -- `RESET`
  deriving DecidableEq, Repr

/-- R61: the accesses a line stands for. -/
def ScriptLine.accesses : ScriptLine → Option (List Access)
  | .write r v => some [.write .word r.offset v]
  | .read r    => some [.read .word r.offset]
  | .asm line  => line.expand.map fun ws => ws.map commandWrite
  | .reset     => some [.reset]

/-- R61, R112: a host program as the list of its accesses. -/
def assemble : List ScriptLine → Option (List Access)
  | []      => some []
  | l :: ls =>
    match l.accesses, assemble ls with
    | some as, some rest => some (as ++ rest)
    | _, _ => none

end Sys2Proof.Machine
end

