-- ==== Sys2Proof/Machine/Sequencer.lean ====
section
/-! DEFINITION. The round sequencer, the small-step form of a permutation (`45_sequencer.md` R113). The commands use the
one-function form (`permuteBank`, allowed by R114); that the two agree is R114 itself. -/

namespace Sys2Proof.Machine

/-- R113 `PermStart`. -/
def permStart (s : State) : State := { s with rnd := 0 }

/-- R113 `PermStep` on a bank: the next state, and whether the permutation is done. `none` when `rnd` is 24 to 31, which
cannot arise (R15: "value in `[0, 24)`") and has no round. -/
def permStep (b : Bank) (s : State) : Option (State × Bool) :=
  if h : s.rnd.toNat < 24 then
    let t := s.withBank b (keccakRound (s.bank b) ⟨s.rnd.toNat, h⟩)
    if s.rnd = 23 then some ({ t with rnd := 0 }, true)
    else some ({ t with rnd := t.rnd + 1 }, false)
  else none

/-- `PermStep` until done, at most `n` of them; `none` when it is not done by then. -/
def permRun (b : Bank) : Nat → State → Option State
  | 0, _ => none
  | n + 1, s =>
    match permStep b s with
    | none            => none
    | some (t, true)  => some t
    | some (t, false) => permRun b n t

end Sys2Proof.Machine
end

