-- ==== Sys2Proof/Machine/Tables.lean ====
section
/-! DEFINITION. The recurrences that regenerate the two tables of the permutation (`44_permutation.md` R104). The hardware
"holds the tables as constants; it does not run these recurrences", and so does the model: nothing calls them but a
statement that compares them with the tables. -/

namespace Sys2Proof.Machine

/-- R104: one step of the shift register, `R <- ((R << 1) ^ ((R >> 7) * 0x71)) mod 256`. -/
def lfsrStep (r : BitVec 8) : BitVec 8 := (r <<< 1) ^^^ ((r >>> 7) * 0x71)

/-- R104: the constant of one round, made of the steps `j` of the list, and the register after them. -/
def lfsrRound : List Nat → BitVec 8 → Lane × BitVec 8
  | [], r      => (0, r)
  | j :: js, r =>
    let r' := lfsrStep r
    let (rc, last) := lfsrRound js r'
    (rc ||| (if r'.getLsbD 1 then (1 : Lane) <<< (2 ^ j - 1) else 0), last)

/-- R104: the constants of `n` rounds from a register on; it "carries over from round to round". -/
def lfsrConstants : Nat → BitVec 8 → List Lane
  | 0, _     => []
  | n + 1, r =>
    let (rc, r') := lfsrRound [0, 1, 2, 3, 4, 5, 6] r
    rc :: lfsrConstants n r'

/-- R104: the coordinates the walk visits, with the offset it gives each, `n` steps from step `t` at `(x, y)`. -/
def rhoWalk : Nat → Nat → Fin 5 → Fin 5 → List ((Fin 5 × Fin 5) × Nat)
  | 0, _, _, _     => []
  | n + 1, t, x, y => ((x, y), (t + 1) * (t + 2) / 2 % 64) :: rhoWalk n (t + 1) y (2 * x + 3 * y)

end Sys2Proof.Machine
end

