-- ==== Sys2Proof/Machine/Message.lean ====
section
/-! DEFINITION. The ghost message `M` of `10_state.md` R28, followed along commands, accesses and runs. "No hardware holds
it": no field of the state is `M` and nothing the machine does depends on it; statements carry it beside the state. It has
no upper bound. -/

namespace Sys2Proof.Machine

/-- The ghost message, or `none` where it has no meaning: R28 "meaningless while `LIVE = 0`", R91 "`M <- undefined`"
(log entry 14). -/
abbrev Message := Option (List Byte)

/-- R28: `M` after a command on state `s`. Only an ABSORB that is executed, not refused, adds its byte. -/
def messageAfter (i : Instr) (s : State) (M : Message) : Message :=
  match i with
  | .init         => some []
  | .absorb d     => if s.live then M.map (· ++ [d]) else M
  | .digestSha3   => M
  | .digestKeccak => M
  | .wipe         => none

/-- `M` after a command word: an illegal one is not executed in any part (R119). -/
def messageAfterWord (w : Word) (s : State) (M : Message) : Message :=
  match decode w with
  | .error _ => M
  | .ok i    => messageAfter i s M

/-- `M` after a host access: only a write the bus passes on to `CMD`, and hardware reset, can change it. -/
def messageAfterAccess (a : Access) (s : State) (M : Message) : Message :=
  match a with
  | .read _ _          => M
  | .write width off v =>
    match selectReg width off with
    | some .cmd => messageAfterWord v s M
    | _         => M
  | .reset             => none

/-- `M` after one step of the machine. -/
def messageAfterStep (s : State) (M : Message) : Message :=
  match s.script with
  | []     => M
  | a :: _ => messageAfterAccess a s M

/-- `M` after the commands of a list, in order; it ends early where one does not answer a next state. -/
def messageAfterAll : List Instr → State → Message → Message
  | [], _, M => M
  | i :: is, s, M =>
    match exec i s with
    | .next t    => messageAfterAll is t (messageAfter i s M)
    | .fault _   => M
    | .refused _ => M

/-- `M` after `n` steps of the machine, stopping where the machine stops. -/
def messageAfterRun : Nat → State → Message → Message
  | 0, _, M => M
  | n + 1, s, M =>
    match step s with
    | .next t    => messageAfterRun n t (messageAfterStep s M)
    | .fault _   => M
    | .refused _ => M

end Sys2Proof.Machine
end

