-- ==== Sys2Proof/Machine/Sponge.lean ====
section
/-! DEFINITION. The functions the command sequences compute: the buffer operation of the source and its block-wise form
(`41_absorb.md` R67, R68), the closed form of the absorbed state (R73), and the digest of a whole message
(`42_digest.md` R88). No command calls them; statements compare the commands with them. -/

namespace Sys2Proof.Machine

/-- R67 `AbsorbBuf`: one ABSORB per byte, in order. -/
def absorbBuf (bs : List Byte) (s : State) : Host.Outcome State Fault Refusal :=
  execAll (bs.map .absorb) s

/-- The bytes `xs` placed from index `start` on, zero elsewhere: `0^start || xs || 0^...`. -/
def placedAt (start : Nat) (xs : List Byte) : ByteIndex → Byte := fun k =>
  if start ≤ k.val then xs.getD (k.val - start) 0 else 0

/-- One run of R68: `xs` into the bytes from the cursor on, then the permutation if the block is full. -/
def absorbRun (xs : List Byte) (s : State) : State :=
  let t := { s with A := xorBytes s.A (placedAt s.pos.toNat xs), pos := s.pos + BitVec.ofNat 8 xs.length }
  if t.pos = 136 then { permuteBank .state t with pos := 0 } else t

/-- R68's loop, at most `fuel` times round; each round takes at least one byte while the cursor is below 136. -/
def absorbBlockwiseLoop : Nat → List Byte → State → State
  | 0, _, s => s
  | _ + 1, [], s => s
  | fuel + 1, b :: bs, s =>
    let k := min (136 - s.pos.toNat) (b :: bs).length
    absorbBlockwiseLoop fuel ((b :: bs).drop k) (absorbRun ((b :: bs).take k) s)

/-- R68 `AbsorbBufBlockwise`. -/
def absorbBufBlockwise (bs : List Byte) (s : State) : State := absorbBlockwiseLoop bs.length bs s

/-- R70: the chunks absorbed one after another. -/
def absorbChunks : List (List Byte) → State → Host.Outcome State Fault Refusal
  | [], s => .next s
  | c :: cs, s =>
    match absorbBuf c s with
    | .next t    => absorbChunks cs t
    | .fault f   => .fault f
    | .refused r => .refused r

/-- R145: the permutations one command runs: "INIT and WIPE, 0 permutations; ABSORB, 1 permutation when it is entered
with `pos = 135`, else 0; DIGEST, exactly 1", and none when it is refused. -/
def permutationsIn (i : Instr) (s : State) : Nat :=
  match i with
  | .init         => 0
  | .absorb _     => if s.live ∧ s.pos = 135 then 1 else 0
  | .digestSha3   => if s.live then 1 else 0
  | .digestKeccak => if s.live then 1 else 0
  | .wipe         => 0

/-- R72: the permutations a list of commands runs. -/
def permutationCount : List Instr → State → Nat
  | [], _ => 0
  | i :: is, s =>
    match exec i s with
    | .next t    => permutationsIn i s + permutationCount is t
    | .fault _   => 0
    | .refused _ => 0

/-- R73: block `j` of the message. -/
def messageBlock (M : List Byte) (j : Nat) : List Byte := (M.drop (136 * j)).take 136

/-- R73: `Z_j`, the state after `j` whole blocks. -/
def blockState (M : List Byte) : Nat → Lanes
  | 0     => zeroLanes
  | j + 1 => keccakF (xorBytes (blockState M j) (placedAt 0 (messageBlock M j)))

/-- R73: the state after absorbing `M` from a fresh context: `Z_q ^ (M[136q .. n-1] || 0^(200-r))`. -/
def absorbedLanes (M : List Byte) : Lanes :=
  xorBytes (blockState M (M.length / 136)) (placedAt 0 (M.drop (136 * (M.length / 136))))

/-- R88: `Digest(M, m)`. -/
def digestOfMessage (M : List Byte) (m : Mode) : DigestBytes :=
  digestOf (keccakF (xorBytes (absorbedLanes M) (padBlock (M.length % 136) (padByte m))))

/-- R88: the message padded to whole blocks, "by appending `p`, then zero bytes, then 0x80 (or the single byte
`p|0x80` when `r = 135`)". -/
def paddedMessage (M : List Byte) (m : Mode) : List Byte :=
  if M.length % 136 = 135 then M ++ [padByte m ||| padFinal]
  else M ++ padByte m :: (List.replicate (134 - M.length % 136) 0x00 ++ [padFinal])

/-- The DIGEST command of a mode. -/
def digestInstr : Mode → Instr
  | .standard     => .digestSha3
  | .legacyKeccak => .digestKeccak

/-- The data bytes of the ABSORB commands of a list, in order, whatever else is in it. It is not R28's `M`, which
`Message.lean` follows command by command; the two agree on what is absorbed after an INIT with no INIT or WIPE since. -/
def messageOf : List Instr → List Byte
  | []                  => []
  | .absorb d :: is     => d :: messageOf is
  | .init :: is         => messageOf is
  | .digestSha3 :: is   => messageOf is
  | .digestKeccak :: is => messageOf is
  | .wipe :: is         => messageOf is

end Sys2Proof.Machine
end

