-- ==== Sys2Proof/Safety.lean ====
section
/-! DEFINITION. What counts as a good state and a good run: the invariants of `10_state.md` R29 and the states of R28, the clean end of a run of
`45_sequencer.md` R112, and the order of commands R110 calls legal. -/

namespace Sys2Proof.Machine

/-- R29 (e), R17: `S` and `pos` are those of the message `M` absorbed since INIT (`41_absorb.md` R73). -/
def State.Represents (s : State) (M : List Byte) : Prop :=
  s.A = absorbedLanes M ∧ s.pos.toNat = M.length % 136

/-- R21: what `DOUT` holds while a context exists. With `DVALID = 1` it is the digest, in some mode, of a message that
the context had absorbed by then; with `DVALID = 0` it is zero. -/
def State.OutputOf (s : State) (M : List Byte) : Prop :=
  if s.dvalid then ∃ (P : List Byte) (m : Mode), P <+: M ∧ s.dout = digestOfMessage P m
  else s.dout = zeroDigest

/-- R29: "Invariants that hold before and after every command, for every host behaviour", in the reading of log entry 14:
(e) says that some message exists, and R21 is added. `InvFor` below is about the ghost message itself. -/
structure State.Inv (s : State) : Prop where
  cursor  : s.pos.toNat < 136                                           -- (a)
  scratch : s.TA = zeroLanes                                            -- (b)
  round   : s.rnd = 0                                                   -- (c)
  dead    : s.live = false →
              s.A = zeroLanes ∧ s.dout = zeroDigest ∧ s.pos = 0 ∧ s.dvalid = false   -- (d)
  context : s.live = true → ∃ M : List Byte, s.Represents M ∧ s.OutputOf M     -- (e), R21
  output  : s.dvalid = true → s.live = true                                     -- (f)

/-- R29 (a) to (f) as they stand there, for the ghost message `M` of R28: (e) is about that very message. -/
structure State.InvFor (s : State) (M : Message) : Prop where
  cursor  : s.pos.toNat < 136                                           -- (a)
  scratch : s.TA = zeroLanes                                            -- (b)
  round   : s.rnd = 0                                                   -- (c)
  dead    : s.live = false →
              s.A = zeroLanes ∧ s.dout = zeroDigest ∧ s.pos = 0 ∧ s.dvalid = false   -- (d)
  context : s.live = true → ∃ bs, M = some bs ∧ s.Represents bs         -- (e)
  output  : s.dvalid = true → s.live = true                             -- (f)

/-- R28: the source's state Created, "`LIVE = 1` with `M` empty". -/
def State.Created (s : State) (M : Message) : Prop := s.live = true ∧ M = some []

/-- R28: the source's state Absorbing, "`LIVE = 1` with any `M`". -/
def State.Absorbing (s : State) (M : Message) : Prop := s.live = true ∧ ∃ bs, M = some bs

/-- R112: the engine's part of a clean end of a run. -/
def State.Clean (s : State) : Prop := s.live = false ∧ s.ill = false ∧ s.uaw = false

/-- R110: "every ABSORB and DIGEST has an INIT before it with no WIPE in between", from an engine that is live or not. -/
def usedInOrder : Bool → List Instr → Bool
  | _, []                      => true
  | _, .init :: is             => usedInOrder true is
  | _, .wipe :: is             => usedInOrder false is
  | live, .absorb _ :: is      => live && usedInOrder live is
  | live, .digestSha3 :: is    => live && usedInOrder live is
  | live, .digestKeccak :: is  => live && usedInOrder live is

end Sys2Proof.Machine
end

