-- ==== Sys2Proof/Certificates/Slice0/Obligations.lean ====
section
/-! DEFINITION. The statements for the provers, rule by rule of `spec/`. Nothing here is proved. In every statement about
a next state, `{ s with … }` says that every field not named is unchanged. -/

open Sys2Proof Sys2Proof.Machine

/-! ### Reset -/

/-- R133, R146. From any state, one between two rounds of a permutation too, hardware reset gives the reset state; every
register of it is zero and the host reads it as R133 says; and no other access clears a sticky flag. -/
def Obligations.HardwareResetGivesTheResetState : Prop :=
  (∀ (s : State) (rest : List Access), s.script = .reset :: rest →
    step s = .next { State.reset with script := rest, responses := s.responses }) ∧
  (State.reset.A = Vector.replicate 25 0#64 ∧ State.reset.pos = 0#8 ∧ State.reset.live = false ∧
    State.reset.TA = Vector.replicate 25 0#64 ∧ State.reset.dout = Vector.replicate 32 0#8 ∧
    State.reset.dvalid = false ∧ State.reset.ill = false ∧ State.reset.uaw = false ∧ State.reset.rnd = 0#5) ∧
  (readReg State.reset .status = 0x00000000#32 ∧ readReg State.reset .blockSize = 0x00000088#32 ∧
    readReg State.reset .digestSize = 0x00000020#32 ∧ readReg State.reset .cmd = 0x00000000#32 ∧
    ∀ j, readReg State.reset (.dout j) = 0x00000000#32) ∧
  (∀ (s t : State) (a : Access) (rest : List Access), s.script = a :: rest → step s = .next t →
    (s.ill = true ∧ t.ill = false) ∨ (s.uaw = true ∧ t.uaw = false) → a = .reset)

/-! ### INIT and WIPE -/

/-- R63. INIT completes in every state and makes a fresh context. (`rnd` is in `ResetWipeAndInitCompared`.) -/
def Obligations.InitMakesAFreshContext : Prop :=
  decode 0x10000000#32 = .ok .init ∧
  (∀ s : State, ∃ t, exec .init s = .next t ∧
    t.A = Vector.replicate 25 0#64 ∧ t.pos = 0#8 ∧ t.TA = Vector.replicate 25 0#64 ∧
    t.dout = Vector.replicate 32 0#8 ∧ t.dvalid = false ∧ t.live = true ∧
    t.ill = s.ill ∧ t.uaw = s.uaw ∧ t.script = s.script ∧ t.responses = s.responses) ∧
  (∃ t, exec .init State.reset = .next t ∧ statusWord t = 0x00000001#32)

/-- R64. INIT is WIPE followed by INIT, and what it leaves depends on nothing earlier but the sticky flags (the host's
own program and responses aside). -/
def Obligations.InitDiscardsTheOldContext : Prop :=
  (∀ s : State, ∃ t, exec .wipe s = .next t ∧ exec .init t = exec .init s) ∧
  (∀ s₁ s₂ : State, ∃ t₁ t₂, exec .init s₁ = .next t₁ ∧ exec .init s₂ = .next t₂ ∧
    t₁ = { t₂ with ill := s₁.ill, uaw := s₁.uaw, script := s₁.script, responses := s₁.responses })

/-- R91, R92. WIPE completes in every state, zeroes everything but the sticky flags whatever was there before, and is
idempotent. -/
def Obligations.WipeZeroesTheContextAndIsIdempotent : Prop :=
  decode 0x40000000#32 = .ok .wipe ∧
  (∀ s : State, ∃ t, exec .wipe s = .next t ∧
    t.A = Vector.replicate 25 0#64 ∧ t.pos = 0#8 ∧ t.TA = Vector.replicate 25 0#64 ∧
    t.dout = Vector.replicate 32 0#8 ∧ t.dvalid = false ∧ t.live = false ∧ t.rnd = 0#5 ∧
    t.ill = s.ill ∧ t.uaw = s.uaw ∧ t.script = s.script ∧ t.responses = s.responses ∧
    t = { State.reset with ill := s.ill, uaw := s.uaw, script := s.script, responses := s.responses } ∧
    exec .wipe t = .next t)

/-- R134. The three columns of its table. -/
def Obligations.ResetWipeAndInitCompared : Prop :=
  ∀ s : State,
    hardReset s = { State.reset with script := s.script, responses := s.responses } ∧
    exec .wipe s = .next { hardReset s with ill := s.ill, uaw := s.uaw } ∧
    exec .init s = .next { hardReset s with ill := s.ill, uaw := s.uaw, live := true }

/-- R93. After WIPE: WIPE is a no-op, INIT makes a new context, ABSORB and DIGEST set `UAW` and change nothing else. -/
def Obligations.WipedContextIsGoneButTheEngineIsNot : Prop :=
  ∀ s : State, ∃ t, exec .wipe s = .next t ∧ t.live = false ∧
    exec .wipe t = .next t ∧
    exec .init t = .next { t with live := true } ∧
    (∀ d, exec (.absorb d) t = .next { t with uaw := true }) ∧
    (∀ m, exec (digestInstr m) t = .next { t with uaw := true })

/-! ### ABSORB -/

/-- R66. On a live context ABSORB completes for every byte and every cursor below 136: byte `pos` of the state is XORed
with the data, and either the cursor advances or, from 135, the whole state is permuted and the cursor is 0 again (`rnd`
is 0 when a permutation is done, R113). Without a context only `UAW` is set. -/
def Obligations.AbsorbXorsOneByteAtTheCursor : Prop :=
  (∀ d : Byte, decode (0x20000000#32 ||| d.setWidth 32) = .ok (.absorb d)) ∧
  (∀ (s : State) (d : Byte), s.live = true → s.pos.toNat < 136 →
    ∃ S1 : Lanes,
      (∀ k : ByteIndex, byteAt S1 k = if k.val = s.pos.toNat then byteAt s.A k ^^^ d else byteAt s.A k) ∧
      exec (.absorb d) s = .next
        (if s.pos = 135#8 then { s with A := keccakF S1, pos := 0#8, rnd := 0#5 }
         else { s with A := S1, pos := s.pos + 1#8 })) ∧
  (∀ (s : State) (d : Byte), s.live = false → exec (.absorb d) s = .next { s with uaw := true })

/-- R74. ABSORB's frame, what its effect does not depend on, and that DIGEST leaves `S` and `pos`. -/
def Obligations.AbsorbTouchesOnlyStateAndCursor : Prop :=
  (∀ (s t : State) (d : Byte), exec (.absorb d) s = .next t →
    t.TA = s.TA ∧ t.dout = s.dout ∧ t.dvalid = s.dvalid ∧ t.live = s.live ∧ t.ill = s.ill ∧
    t.script = s.script ∧ t.responses = s.responses ∧
    (s.live = true → t.uaw = s.uaw) ∧ (s.live = false → t = { s with uaw := true })) ∧
  (∀ (s₁ s₂ t₁ t₂ : State) (d : Byte), s₁.A = s₂.A → s₁.pos = s₂.pos → s₁.live = s₂.live →
    exec (.absorb d) s₁ = .next t₁ → exec (.absorb d) s₂ = .next t₂ → t₁.A = t₂.A ∧ t₁.pos = t₂.pos) ∧
  (∀ (s t : State) (m : Mode), exec (digestInstr m) s = .next t → t.A = s.A ∧ t.pos = s.pos)

/-- R69, R70. Absorbing chunks one after another is absorbing their concatenation in one call, from any state; an empty
buffer is no command; and DIGEST commands in between make no difference to `S` and `pos`. -/
def Obligations.StreamingEquivalence : Prop :=
  (∀ (cs : List (List Byte)) (s : State), absorbChunks cs s = absorbBuf cs.flatten s) ∧
  (∀ s : State, absorbBuf [] s = .next s) ∧
  (∀ (is : List Instr) (s : State), s.live = true → s.pos.toNat < 136 →
    (∀ i ∈ is, (∃ d, i = .absorb d) ∨ ∃ m, i = digestInstr m) →
    ∃ t u, execAll is s = .next t ∧ absorbBuf (messageOf is) s = .next u ∧ t.A = u.A ∧ t.pos = u.pos)

/-- From R68, on a live context as R67 has it (an ABSORB on a dead engine is refused, R66, and R68's loop does not show that
guard). The block-wise and the byte-wise buffer operation give the same state, for every buffer. -/
def Obligations.BlockwiseAbsorbAgrees : Prop :=
  ∀ (bs : List Byte) (s : State), s.live = true → s.pos.toNat < 136 →
    absorbBuf bs s = .next (absorbBufBlockwise bs s)

/-- From R72 and R145. The cursor after `n` bytes, and the number of permutations, counted as R145 counts them. -/
def Obligations.AbsorbedLengthGivesCursorAndPermutations : Prop :=
  (∀ (bs : List Byte) (s : State), s.live = true → s.pos.toNat < 136 →
    permutationCount (bs.map .absorb) s = (s.pos.toNat + bs.length) / 136 ∧
    ∃ t, absorbBuf bs s = .next t ∧ t.pos.toNat = (s.pos.toNat + bs.length) % 136) ∧
  (∀ (bs : List Byte) (m : Mode) (s : State),
    permutationCount (.init :: (bs.map .absorb ++ [digestInstr m])) s = bs.length / 136 + 1)

/-- R73. The closed form of `S` and `pos` after INIT and the absorption of a message in any chunking. -/
def Obligations.AbsorbedStateHasTheClosedForm : Prop :=
  ∀ (s : State) (cs : List (List Byte)), ∃ t u, exec .init s = .next t ∧ absorbChunks cs t = .next u ∧
    u.A = absorbedLanes cs.flatten ∧ u.pos.toNat = cs.flatten.length % 136 ∧
    (cs.flatten.length % 136 = 0 → u.A = blockState cs.flatten (cs.flatten.length / 136) ∧ u.pos = 0#8)

/-! ### DIGEST -/

/-- R75, R76. On a live context both DIGEST commands complete for every cursor below 136: the copy is padded with the
mode's byte at the cursor and 0x80 in byte 135, permuted once, its first 32 bytes delivered, and wiped (`rnd` is 0 when
the permutation is done, R113). Nothing else changes. Without a context only `UAW` is set. -/
def Obligations.DigestDeliversThePermutedPaddedCopy : Prop :=
  decode 0x30000000#32 = .ok (digestInstr .standard) ∧ decode 0x30000100#32 = .ok (digestInstr .legacyKeccak) ∧
  (∀ (s : State) (m : Mode), s.live = true → s.pos.toNat < 136 →
    ∃ (P : Lanes) (D : DigestBytes),
      (∀ k : ByteIndex, byteAt P k =
        byteAt s.A k ^^^ (if k.val = s.pos.toNat then (match m with | .standard => 0x06#8 | .legacyKeccak => 0x01#8) else 0#8)
          ^^^ (if k.val = 135 then 0x80#8 else 0#8)) ∧
      (∀ k : Fin 32, D[k] = byteAt (keccakF P) ⟨k.val, by omega⟩) ∧
      exec (digestInstr m) s = .next
        { s with TA := Vector.replicate 25 0#64, dout := D, dvalid := true, rnd := 0#5 }) ∧
  (∀ (s : State) (m : Mode), s.live = false → exec (digestInstr m) s = .next { s with uaw := true })

/-- R77, R78. The two padding bytes of DIGEST are the padding block XORed in; it touches neither the capacity nor the
bytes below the cursor; at cursor 135 the two fall on one byte, 0x86 or 0x81. -/
def Obligations.PaddingIsTheBlockXoredIn : Prop :=
  (∀ (s : State) (m : Mode) (r : RateIndex),
    (padScratch m r s).TA = xorBytes s.TA (padBlock r.val (match m with | .standard => 0x06#8 | .legacyKeccak => 0x01#8)) ∧
    (∀ k : ByteIndex, k.val < r.val ∨ 136 ≤ k.val → byteAt (padScratch m r s).TA k = byteAt s.TA k)) ∧
  (∀ (s : State) (m : Mode) (r : RateIndex), r.val = 135 →
    byteAt (padScratch m r s).TA ⟨135, by omega⟩ =
      byteAt s.TA ⟨135, by omega⟩ ^^^ (match m with | .standard => 0x86#8 | .legacyKeccak => 0x81#8))

/-- R80, and the repeat of R82. DIGEST changes `DOUT`, `DVALID`, `T` and `rnd` only (and `UAW` when refused); a second
DIGEST, in either mode, gives what it would have given in place of the first, so two of one mode deliver the same 32
bytes. -/
def Obligations.DigestIsNonDestructiveAndRepeatable : Prop :=
  (∀ (s t : State) (m : Mode), exec (digestInstr m) s = .next t →
    t = { s with dout := t.dout, dvalid := t.dvalid, TA := t.TA, rnd := t.rnd, uaw := t.uaw } ∧
    (s.live = true → t.uaw = s.uaw)) ∧
  (∀ (s : State) (m m' : Mode), s.live = true → s.pos.toNat < 136 →
    ∃ t, exec (digestInstr m) s = .next t ∧ exec (digestInstr m') t = exec (digestInstr m') s)

/-- R81. From any state: after INIT and any ABSORB and DIGEST commands in any order, DIGEST delivers the digest of all
the bytes absorbed since INIT. -/
def Obligations.DigestIsOfTheWholeMessage : Prop :=
  ∀ (s : State) (is : List Instr) (m : Mode), (∀ i ∈ is, (∃ d, i = .absorb d) ∨ ∃ m', i = digestInstr m') →
    ∃ t u, execAll (.init :: is) s = .next t ∧ exec (digestInstr m) t = .next u ∧
      u.dout = digestOfMessage (messageOf is) m ∧ u.dvalid = true ∧ u.A = t.A ∧ u.pos = t.pos

/-- From R88 ("Equivalently: ..."). The digest of a message is the first 32 bytes of the sponge over the padded message,
whose length is a whole number of blocks, absorbed block by block from the zero state. -/
def Obligations.DigestIsTheSpongeOfThePaddedMessage : Prop :=
  ∀ (M : List Byte) (m : Mode),
    (paddedMessage M m).length = 136 * (M.length / 136 + 1) ∧
    digestOfMessage M m = digestOf (blockState (paddedMessage M m) (M.length / 136 + 1))

/-- R86. The two modes' padded copies differ in exactly the byte at the cursor, by 0x07, and their permuted states
differ. (That their first 32 bytes differ is no theorem, U7, and is not stated.) -/
def Obligations.TheModesPermuteDifferentCopies : Prop :=
  ∀ (s : State) (r : RateIndex),
    (∀ k : ByteIndex, byteAt (padScratch .standard r s).TA k ^^^ byteAt (padScratch .legacyKeccak r s).TA k =
      if k.val = r.val then 0x07#8 else 0x00#8) ∧
    keccakF (padScratch .standard r s).TA ≠ keccakF (padScratch .legacyKeccak r s).TA

/-! ### The permutation -/

/-- R98. Theta in every lane, with its two fixed points; `rotateLeft` is the library's rotation. -/
def Obligations.ThetaFollowsItsFormula : Prop :=
  (∀ (A : Lanes) (x y : Fin 5),
    laneAt (theta A) x y = laneAt A x y ^^^
      ((laneAt A (x + 4) 0 ^^^ laneAt A (x + 4) 1 ^^^ laneAt A (x + 4) 2 ^^^ laneAt A (x + 4) 3 ^^^ laneAt A (x + 4) 4) ^^^
       (laneAt A (x + 1) 0 ^^^ laneAt A (x + 1) 1 ^^^ laneAt A (x + 1) 2 ^^^ laneAt A (x + 1) 3 ^^^
          laneAt A (x + 1) 4).rotateLeft 1)) ∧
  theta (Vector.replicate 25 0#64) = Vector.replicate 25 0#64 ∧
  theta (Vector.replicate 25 (BitVec.allOnes 64)) = Vector.replicate 25 (BitVec.allOnes 64)

/-- R99, R100. Rho with the table as R99 prints it (row `x`, column `y`), and pi in all the forms R100 gives: the
coordinate form, its inverse form, the two flat tables, and the cycle of the 24 moving lanes. -/
def Obligations.RhoAndPiFollowTheirTables : Prop :=
  (∀ (A : Lanes) (x y : Fin 5), laneAt (rho A) x y = (laneAt A x y).rotateLeft
    ((#v[#v[ 0, 36,  3, 41, 18],
         #v[ 1, 44, 10, 45,  2],
         #v[62,  6, 43, 15, 61],
         #v[28, 55, 25, 21, 56],
         #v[27, 20, 39,  8, 14]] : Vector (Vector Nat 5) 5)[x][y])) ∧
  (∀ (A : Lanes) (x y : Fin 5), laneAt (piMap A) y (2 * x + 3 * y) = laneAt A x y) ∧
  (∀ (A : Lanes) (x y : Fin 5), laneAt (piMap A) x y = laneAt A (x + 3 * y) x) ∧
  (∀ (A : Lanes) (j : Fin 25), (piMap A)[j] = A[(#v[0, 6, 12, 18, 24, 3, 9, 10, 16, 22, 1, 7, 13, 19, 20, 4, 5, 11, 17, 23,
    2, 8, 14, 15, 21] : Vector (Fin 25) 25)[j]]) ∧
  (∀ (A : Lanes) (i : Fin 25), (piMap A)[(#v[0, 10, 20, 5, 15, 16, 1, 11, 21, 6, 7, 17, 2, 12, 22, 23, 8, 18, 3, 13, 14, 24,
    9, 19, 4] : Vector (Fin 25) 25)[i]] = A[i]) ∧
  (∀ A : Lanes, laneAt (piMap A) 0 0 = laneAt A 0 0) ∧
  (∃ next : Fin 25 → Fin 25, (∀ (A : Lanes) (i : Fin 25), (piMap A)[next i] = A[i]) ∧
    next^[24] 1 = 1 ∧ ∀ n, 0 < n → n < 24 → next^[n] 1 ≠ 1)

/-- R101, R102. Chi in every lane with its two fixed points, and iota. -/
def Obligations.ChiAndIotaFollowTheirFormulas : Prop :=
  (∀ (A : Lanes) (x y : Fin 5),
    laneAt (chi A) x y = laneAt A x y ^^^ (~~~ laneAt A (x + 1) y &&& laneAt A (x + 2) y)) ∧
  chi (Vector.replicate 25 0#64) = Vector.replicate 25 0#64 ∧
  chi (Vector.replicate 25 (BitVec.allOnes 64)) = Vector.replicate 25 (BitVec.allOnes 64) ∧
  (∀ (A : Lanes) (i : Fin 24), laneAt (iota A i) 0 0 = laneAt A 0 0 ^^^ roundConstants[i]) ∧
  (∀ (A : Lanes) (i : Fin 24) (x y : Fin 5), (x, y) ≠ (0, 0) → laneAt (iota A i) x y = laneAt A x y)

/-- R104. The recurrences give the table of round constants, and the rotation offset of each of the 24 lanes other than
`[0,0]`, once each. -/
def Obligations.TablesComeFromTheirRecurrences : Prop :=
  lfsrConstants 24 0x01#8 = roundConstants.toList ∧
  rhoOffset 0 0 = 0 ∧
  (∀ e ∈ rhoWalk 24 0 1 0, rhoOffset e.1.1 e.1.2 = e.2) ∧
  (∀ x y : Fin 5, (x, y) ≠ (0, 0) → (x, y) ∈ (rhoWalk 24 0 1 0).map (·.1)) ∧
  ((rhoWalk 24 0 1 0).map (·.1)).Nodup

/-- R105. The permutation and each of its steps is a bijection, and the zero state is not mapped to itself. -/
def Obligations.KeccakFIsABijection : Prop :=
  Function.Bijective theta ∧ Function.Bijective rho ∧ Function.Bijective piMap ∧ Function.Bijective chi ∧
  (∀ i, Function.Bijective fun A => iota A i) ∧ (∀ i, Function.Bijective fun A => keccakRound A i) ∧
  Function.Bijective keccakF ∧
  laneAt (keccakF (Vector.replicate 25 0#64)) 0 0 = 0xF1258F7940E1DDE7#64

/-- From R114, with the count of R113. `PermStart` and then `PermStep` until done gives, on either bank, `KeccakF` of it and
`rnd = 0`, after exactly 24 steps (R113) and from any state; before that it is not done. -/
def Obligations.SequencerComputesTheWholePermutation : Prop :=
  ∀ (b : Bank) (s : State),
    permRun b 24 (permStart s) = some { s.withBank b (keccakF (s.bank b)) with rnd := 0#5 } ∧
    ∀ n, n < 24 → permRun b n (permStart s) = none

/-- R16. The alias of lanes and bytes: `S[8*i+k]` is bits `8k+7:8k` of `A[i]`; writing a byte changes 8 bits of one lane
and nothing else; writing a lane changes its 8 bytes and no other. -/
def Obligations.LanesAndBytesAreTheSameBits : Prop :=
  (∀ (A : Lanes) (i : Fin 25) (k : Fin 8), byteAt A ⟨8 * i.val + k.val, by omega⟩ = (A[i]).extractLsb' (8 * k.val) 8) ∧
  (∀ (A : Lanes) (k : ByteIndex) (v : Byte) (i : Fin 25) (b : Nat), b < 64 →
    ((setByte A k v)[i]).getLsbD b =
      if i.val = k.val / 8 ∧ b / 8 = k.val % 8 then v.getLsbD (b % 8) else (A[i]).getLsbD b) ∧
  (∀ (A : Lanes) (i : Fin 25) (v : Lane) (k : ByteIndex),
    byteAt (A.set i.val v) k = if k.val / 8 = i.val then v.extractLsb' (8 * (k.val % 8)) 8 else byteAt A k) ∧
  (∀ (A : Lanes) (x y : Fin 5), laneAt A x y = A[(⟨x.val + 5 * y.val, by omega⟩ : Fin 25)])

/-! ### Command words -/

/-- Decoding and encoding agree, over all instructions and all 2^32 words (R52 to R55): a word decodes to an instruction
exactly when it is that instruction's word. -/
def Obligations.DecodeInvertsEncode : Prop :=
  (∀ i : Instr, i.WellFormed → decode (encode i) = .ok i) ∧
  (∀ (w : Word) (i : Instr), decode w = .ok i → i.WellFormed ∧ w = encode i)

/-- R57. The decoder is total, accepts exactly the words of R57's formula, which are exactly the words whose fields pass
the checks of format C, and there are 260 of them; every other word sets `ILL` and changes nothing else. -/
def Obligations.ExactlyTheLegalWordsDecode : Prop :=
  (∀ w : Word, legal w = true ↔ ∃ i, decode w = .ok i) ∧
  (∀ w : Word, legal w = false ↔ ∃ e, decode w = .error e) ∧
  (∀ w : Word, legal w = (Fields.ofWord w).wellFormed) ∧
  (∃ l : List Word, l.Nodup ∧ l.length = 260 ∧ ∀ w, w ∈ l ↔ legal w = true) ∧
  (∀ (w : Word) (s : State), legal w = false → execWord w s = .next { s with ill := true })

/-- From `spec/opcode_table.json`. A word that decodes belongs to exactly one row of the table, that of its instruction;
a word that does not decode belongs to none. -/
def Obligations.EachLegalWordHasOneTableRow : Prop :=
  (∀ (w : Word) (i : Instr), decode w = .ok i → (opcodeRows.filter (·.accepts w)).map (·.mnemonic) = [i.mnemonic]) ∧
  (∀ (w : Word) (e : Illegal), decode w = .error e → opcodeRows.filter (·.accepts w) = [])

/-- From `95_test_vectors.md` section 2.7. A few words, written out, and what they decode to. -/
def Obligations.SampleWordsDecodeAsPrinted : Prop :=
  decode 0b00010000000000000000000000000000#32 = .ok .init ∧
  decode 0b00100000000000000000000001100001#32 = .ok (.absorb 0x61#8) ∧
  decode 0b00110000000000000000000000000000#32 = .ok .digestSha3 ∧
  decode 0b00110000000000000000000100000000#32 = .ok .digestKeccak ∧
  decode 0b01000000000000000000000000000000#32 = .ok .wipe ∧
  decode 0b00100000000000000000000101100001#32 = .error .unusedMode ∧
  decode 0b00110000000000000000001000000000#32 = .error .reservedBits ∧
  decode 0b00000000000000000000000000000000#32 = .error .reservedOpcode

/-- R107. `Exec(w)`: the checks in their order, each branch, and that one of them always gives a next state when the
cursor is in its range (R29 (a)). -/
def Obligations.ExecFollowsItsCheckOrder : Prop :=
  ∀ (w : Word) (s : State),
    (legal w = false → execWord w s = .next { s with ill := true }) ∧
    (legal w = true → w.extractLsb' 28 4 = 0x1#4 → execWord w s = exec .init s) ∧
    (legal w = true → w.extractLsb' 28 4 = 0x4#4 → execWord w s = exec .wipe s) ∧
    (legal w = true → w.extractLsb' 28 4 = 0x2#4 ∨ w.extractLsb' 28 4 = 0x3#4 → s.live = false →
      execWord w s = .next { s with uaw := true }) ∧
    (legal w = true → w.extractLsb' 28 4 = 0x2#4 → s.live = true →
      execWord w s = exec (.absorb (w.extractLsb' 0 8)) s) ∧
    (legal w = true → w.extractLsb' 28 4 = 0x3#4 → s.live = true →
      execWord w s = exec (digestInstr (if w.getLsbD 8 then .legacyKeccak else .standard)) s) ∧
    (s.pos.toNat < 136 → ∃ t, execWord w s = .next t)

/-! ### Faults -/

/-- R119. A 32-bit aligned write of an illegal word to `CMD` sets `ILL` and nothing else, in every state, and completes
normally; no command changes `ILL`, and nothing but hardware reset clears it. -/
def Obligations.IllegalWordSetsOnlyIll : Prop :=
  (∀ (s : State) (w : Word) (rest : List Access), s.script = commandWrite w :: rest → legal w = false →
    step s = .next { s with script := rest, ill := true, responses := s.responses ++ [.done] }) ∧
  (∀ (s t : State) (i : Instr), exec i s = .next t → t.ill = s.ill) ∧
  (∀ s t : State, step s = .next t → s.ill = true → t.ill = false → ∃ rest, s.script = .reset :: rest)

/-- R120. A legal ABSORB or DIGEST write with `LIVE = 0` sets `UAW` and nothing else and completes normally; nothing but
hardware reset clears `UAW`; INIT and WIPE are never refused. -/
def Obligations.UseWithoutAContextSetsOnlyUaw : Prop :=
  (∀ (s : State) (i : Instr) (rest : List Access), s.script = commandWrite (encode i) :: rest → s.live = false →
    (∃ d, i = .absorb d) ∨ (∃ m, i = digestInstr m) →
    step s = .next { s with script := rest, uaw := true, responses := s.responses ++ [.done] }) ∧
  (∀ (s t : State) (i : Instr), exec i s = .next t → s.uaw = true → t.uaw = true) ∧
  (∀ s t : State, step s = .next t → s.uaw = true → t.uaw = false → ∃ rest, s.script = .reset :: rest) ∧
  (∀ s : State, (∃ t, exec .init s = .next t ∧ t.uaw = s.uaw) ∧ ∃ t, exec .wipe s = .next t ∧ t.uaw = s.uaw)

/-- R39, R40, R121, R122. Every access the bus rejects is answered with an error and changes nothing of the engine,
whatever word it carries; a read of `CMD` is legal and gives 0; of the writes the bus takes, an illegal word sets `ILL`
only, whatever `LIVE` is, and then a legal ABSORB or DIGEST with `LIVE = 0` sets `UAW` only. -/
def Obligations.RejectedAccessesChangeNothing : Prop :=
  (∀ (s : State) (width : Width) (off : Nat) (rest : List Access), s.script = .read width off :: rest →
    width ≠ .word ∨ off % 4 ≠ 0 ∨ 0x30 ≤ off →
    step s = .next { s with script := rest, responses := s.responses ++ [.busError] }) ∧
  (∀ (s : State) (width : Width) (off : Nat) (v : Word) (rest : List Access), s.script = .write width off v :: rest →
    width ≠ .word ∨ off % 4 ≠ 0 ∨ 0x30 ≤ off ∨ off ≠ 0x00 →
    step s = .next { s with script := rest, responses := s.responses ++ [.busError] }) ∧
  (∀ (s : State) (rest : List Access), s.script = .read .word 0x00 :: rest →
    step s = .next { s with script := rest, responses := s.responses ++ [.data 0x00000000#32] }) ∧
  (∀ (s : State) (w : Word) (rest : List Access), s.script = commandWrite w :: rest → legal w = false →
    step s = .next { s with script := rest, ill := true, responses := s.responses ++ [.done] }) ∧
  (∀ (s : State) (i : Instr) (rest : List Access), s.script = commandWrite (encode i) :: rest → s.live = false →
    (∃ d, i = .absorb d) ∨ (∃ m, i = digestInstr m) →
    step s = .next { s with script := rest, uaw := true, responses := s.responses ++ [.done] })

/-- R22. The sticky flags: a step sets `ILL` only for an illegal word written to `CMD`, `UAW` only for a legal ABSORB or
DIGEST written with `LIVE = 0`, and clears neither unless it is hardware reset. -/
def Obligations.StickyFlagsAreSetAndClearedOnlyAsStated : Prop :=
  ∀ s t : State, step s = .next t →
    (s.ill = false → t.ill = true → ∃ w rest, s.script = commandWrite w :: rest ∧ legal w = false) ∧
    (s.uaw = false → t.uaw = true → s.live = false ∧
      ∃ i rest, s.script = commandWrite (encode i) :: rest ∧ ((∃ d, i = .absorb d) ∨ ∃ m, i = digestInstr m)) ∧
    (s.ill = true → t.ill = false → ∃ rest, s.script = .reset :: rest) ∧
    (s.uaw = true → t.uaw = false → ∃ rest, s.script = .reset :: rest)

/-- From `93_implementation_defined.md` U4, in the model's reading of it (log entry 5, the model's choice): on a live
engine whose cursor is outside the rate part, which no run reaches, ABSORB and DIGEST stop by name; INIT and WIPE, which
do not use the cursor, still complete. -/
def Obligations.UnreachableCursorStopsHashCommands : Prop :=
  ∀ s : State, s.live = true → 136 ≤ s.pos.toNat →
    (∀ d, exec (.absorb d) s = .fault .cursorOutOfRange) ∧
    (∀ m, exec (digestInstr m) s = .fault .cursorOutOfRange) ∧
    (∃ t, exec .init s = .next t) ∧ (∃ t, exec .wipe s = .next t)

/-! ### The host's side -/

/-- When the host's next access writes a word to `CMD` that decodes to `i`, the step is `exec i` on the state with that
access taken off, and then the write's completion is recorded (R30, R36, R42, R107). -/
def Obligations.StepRunsTheDecodedCommand : Prop :=
  ∀ (s : State) (w : Word) (i : Instr) (rest : List Access), s.script = commandWrite w :: rest → decode w = .ok i →
    step s = (match exec i { s with script := rest } with
      | .next t    => .next { t with responses := t.responses ++ [.done] }
      | .fault f   => .fault f
      | .refused r => .refused r) ∧
    ∀ t, exec i { s with script := rest } = .next t → t.script = rest ∧ t.responses = s.responses

/-- R32, R37. What each register reads as, that a read changes nothing of the engine, that a write to `CMD` executes the
value, and that a write to any other register and any access to 0x30 to 0x3F is a bus error. -/
def Obligations.AccessesFollowTheRegisterMap : Prop :=
  (∀ (s : State) (off : Nat) (rest : List Access), s.script = .read .word off :: rest →
    (off = 0x00 → step s = .next { s with script := rest, responses := s.responses ++ [.data 0x00000000#32] }) ∧
    (off = 0x04 → step s = .next { s with script := rest, responses := s.responses ++ [.data (statusWord s)] }) ∧
    (off = 0x08 → step s = .next { s with script := rest, responses := s.responses ++ [.data 0x00000088#32] }) ∧
    (off = 0x0C → step s = .next { s with script := rest, responses := s.responses ++ [.data 0x00000020#32] }) ∧
    (∀ j : Fin 8, off = 0x10 + 4 * j.val →
      step s = .next { s with script := rest, responses := s.responses ++ [.data (doutWord s.dout j)] }) ∧
    (0x30 ≤ off → step s = .next { s with script := rest, responses := s.responses ++ [.busError] })) ∧
  (∀ (s : State) (off : Nat) (v : Word) (rest : List Access), s.script = .write .word off v :: rest →
    (off = 0x00 → step s = completeWrite (execWord v { s with script := rest })) ∧
    (off ≠ 0x00 → step s = .next { s with script := rest, responses := s.responses ++ [.busError] }))

/-- From R31. The bits of `STATUS`. -/
def Obligations.StatusShowsTheFlags : Prop :=
  ∀ s : State,
    (statusWord s).getLsbD 0 = s.live ∧ (statusWord s).getLsbD 1 = s.dvalid ∧
    (statusWord s).getLsbD 2 = s.ill ∧ (statusWord s).getLsbD 3 = s.uaw ∧
    ∀ i, 4 ≤ i → (statusWord s).getLsbD i = false

/-- From R19, R21 and the table of R31: the only events that change `LIVE` and `DVALID`. -/
def Obligations.OnlyTheseEventsChangeLiveAndDvalid : Prop :=
  ∀ s t : State, step s = .next t →
    (s.live = false → t.live = true → ∃ rest, s.script = commandWrite 0x10000000#32 :: rest) ∧
    (s.live = true → t.live = false →
      (∃ rest, s.script = commandWrite 0x40000000#32 :: rest) ∨ ∃ rest, s.script = .reset :: rest) ∧
    (s.dvalid = false → t.dvalid = true → s.live = true ∧
      ((∃ rest, s.script = commandWrite 0x30000000#32 :: rest) ∨ ∃ rest, s.script = commandWrite 0x30000100#32 :: rest)) ∧
    (s.dvalid = true → t.dvalid = false →
      (∃ rest, s.script = commandWrite 0x10000000#32 :: rest) ∨
      (∃ rest, s.script = commandWrite 0x40000000#32 :: rest) ∨ ∃ rest, s.script = .reset :: rest)

/-- From the "written by" column of R15 and from R138: the only events that change `S`, `pos` or `DOUT`. -/
def Obligations.OnlyTheirWritersChangeStateAndDigest : Prop :=
  ∀ s t : State, step s = .next t →
    (t.A ≠ s.A ∨ t.pos ≠ s.pos →
      (∃ rest, s.script = .reset :: rest) ∨
      ∃ i rest, s.script = commandWrite (encode i) :: rest ∧ (i = .init ∨ i = .wipe ∨ ∃ d, i = .absorb d)) ∧
    (t.dout ≠ s.dout →
      (∃ rest, s.script = .reset :: rest) ∨
      ∃ i rest, s.script = commandWrite (encode i) :: rest ∧ (i = .init ∨ i = .wipe ∨ ∃ m, i = digestInstr m))

/-- R33. `DOUTj` little-endian, its offset and reset value, that a read has no side effect and a write is a bus error, and
the halves of the permuted lanes. -/
def Obligations.DigestWordsAreLittleEndian : Prop :=
  (∀ (d : DigestBytes) (j : Fin 8) (k : Fin 4),
    (doutWord d j).extractLsb' (8 * k.val) 8 = d[(⟨4 * j.val + k.val, by omega⟩ : Fin 32)]) ∧
  (∀ j : Fin 8, selectReg .word (0x10 + 4 * j.val) = some (.dout j)) ∧
  (∀ j : Fin 8, doutWord State.reset.dout j = 0x00000000#32) ∧
  (∀ (s : State) (j : Fin 8) (rest : List Access), s.script = .read .word (0x10 + 4 * j.val) :: rest →
    step s = .next { s with script := rest, responses := s.responses ++ [.data (doutWord s.dout j)] }) ∧
  (∀ (X : Lanes) (m : Fin 4),
    doutWord (digestOf X) ⟨2 * m.val, by omega⟩ = (X[(⟨m.val, by omega⟩ : Fin 25)]).extractLsb' 0 32 ∧
    doutWord (digestOf X) ⟨2 * m.val + 1, by omega⟩ = (X[(⟨m.val, by omega⟩ : Fin 25)]).extractLsb' 32 32) ∧
  (∀ (s : State) (j : Fin 8) (v : Word), regWrite .word (0x10 + 4 * j.val) v s = .next (respond .busError s))

/-- From R36, R132 and R135, in the model's reading (log entry 3): with no host access left the engine holds its state. -/
def Obligations.IdleEngineHoldsItsState : Prop :=
  ∀ s : State, s.script = [] → step s = .next s

/-! ### Whole machine -/

/-- From R29 and R21, in the model's reading (log entry 14): R29 (a) to (f), with (e) as "some message exists that gives `S`
and `pos`" and with what R21 says of `DOUT` added. Every step keeps them, from every state that meets them, whatever the
host does. (`EveryStepKeepsTheInvariantOfItsMessage` has R29 as it stands, with the ghost message.) -/
def Obligations.EveryStepKeepsTheInvariant : Prop :=
  ∀ s t : State, s.Inv → step s = .next t → t.Inv

/-- From R29 and R133: the invariant holds after reset. -/
def Obligations.ResetMeetsTheInvariant : Prop := State.reset.Inv

/-- From R87, R110, R116 and R117: in every state that meets the invariant, every access completes; nothing stops. -/
def Obligations.InvariantStatesNeverStop : Prop :=
  ∀ s : State, s.Inv → ∃ t, step s = .next t

/-- R110. Commands that begin with INIT and are in a legal order run without setting `UAW` (or `ILL`), from any state;
and so do commands in an order legal for an engine that is live, or not, already. -/
def Obligations.CommandsInOrderAreNeverRefused : Prop :=
  (∀ (is : List Instr) (s : State), usedInOrder false (.init :: is) = true →
    ∃ t, execAll (.init :: is) s = .next t ∧ t.uaw = s.uaw ∧ t.ill = s.ill) ∧
  (∀ (is : List Instr) (s : State), s.pos.toNat < 136 → usedInOrder s.live is = true →
    ∃ t, execAll is s = .next t ∧ t.uaw = s.uaw ∧ t.ill = s.ill ∧ t.pos.toNat < 136)

/-- From R27 (and D14): the hidden state cannot be learnt except through DIGEST. Two engines that agree on what the host
can see, and whose hidden `S`, `pos`, `T`, `rnd` may differ, answer every host program that issues no DIGEST with the same
responses, for any number of steps. -/
def Obligations.HiddenStateShowsOnlyThroughDigest : Prop :=
  ∀ (n : Nat) (s₁ s₂ : State), s₁.pos.toNat < 136 → s₂.pos.toNat < 136 →
    s₁.live = s₂.live → s₁.dvalid = s₂.dvalid → s₁.ill = s₂.ill → s₁.uaw = s₂.uaw → s₁.dout = s₂.dout →
    s₁.script = s₂.script → s₁.responses = s₂.responses →
    (∀ a ∈ s₁.script, a ≠ commandWrite 0x30000000#32 ∧ a ≠ commandWrite 0x30000100#32) →
    ∃ t₁ t₂ : State, Sys2Proof.core.run n s₁ = .next t₁ ∧ Sys2Proof.core.run n s₂ = .next t₂ ∧
      t₁.responses = t₂.responses ∧ t₁.script = t₂.script

/-- From the table of R62 with R112: from any state, the host sequence construct with an initial buffer, digest, the
eight reads, dispose ends with the responses and values the rules give, and the engine is clean if no sticky flag was
set before. -/
def Obligations.HashSequenceReturnsTheDigestAndEndsClean : Prop :=
  ∀ (s : State) (bs : List Byte) (m : Mode),
    s.script = commandWrite (encode .init) :: (absorbWords bs).map commandWrite ++
      (commandWrite (encode (digestInstr m)) :: (List.finRange 8).map (fun j => .read .word (Reg.offset (.dout j)))) ++
      [commandWrite (encode .wipe)] →
    ∃ t : State, Sys2Proof.core.run s.script.length s = .next t ∧
      t = { State.reset with ill := s.ill, uaw := s.uaw, responses := t.responses } ∧
      t.readValues = s.readValues ++ (List.finRange 8).map (doutWord (digestOfMessage bs m)) ∧
      (s.ill = false → s.uaw = false → t.Clean)

/-! ### The ghost message -/

/-- R28. What each command does to `M`, an ABSORB only where it is executed; after an INIT and commands that hold no INIT and
no WIPE, `M` is the bytes of their ABSORBs in order, whatever came before; an access that writes no `CMD` word and is no
reset leaves `M`; and the source's states Created and Absorbing. -/
def Obligations.MessageIsWhatWasAbsorbedSinceInit : Prop :=
  (∀ (s : State) (M : Message), messageAfter .init s M = some []) ∧
  (∀ (s : State) (bs : List Byte) (d : Byte), s.live = true → messageAfter (.absorb d) s (some bs) = some (bs ++ [d])) ∧
  (∀ (s : State) (M : Message) (d : Byte), s.live = false → messageAfter (.absorb d) s M = M) ∧
  (∀ (s : State) (M : Message) (m : Mode), messageAfter (digestInstr m) s M = M) ∧
  (∀ (before after : List Instr) (s u : State) (M : Message), execAll before s = .next u →
    (∀ i ∈ after, i ≠ .init ∧ i ≠ .wipe) →
    ∃ t, execAll (before ++ .init :: after) s = .next t ∧ t.live = true ∧
      messageAfterAll (before ++ .init :: after) s M = some (messageOf after)) ∧
  (∀ (s : State) (a : Access) (rest : List Access) (M : Message), s.script = a :: rest → a ≠ .reset →
    (∀ w, a ≠ commandWrite w) → messageAfterStep s M = M) ∧
  (∀ (s : State) (M : Message), ∃ t, exec .init s = .next t ∧ t.Created (messageAfter .init s M)) ∧
  (∀ (s : State) (M : Message) (i : Instr), s.Absorbing M → s.pos.toNat < 136 →
    (∃ d, i = .absorb d) ∨ (∃ m, i = digestInstr m) → ∃ t, exec i s = .next t ∧ t.Absorbing (messageAfter i s M))

/-- From R28 and R91, in the model's reading of "meaningless" and "undefined" as `none` (log entry 14, the model's): every step
keeps "`M` has a meaning exactly while `LIVE = 1`". -/
def Obligations.MessageHasAMeaningExactlyWhileLive : Prop :=
  ∀ (s t : State) (M : Message), s.live = M.isSome → step s = .next t → t.live = (messageAfterStep s M).isSome

/-- R29. Invariants (a) to (f), (e) for the ghost message itself: every step keeps them with `M` following it, and so does
every run of any length, from every state and message that meet them, whatever the host does. -/
def Obligations.EveryStepKeepsTheInvariantOfItsMessage : Prop :=
  (∀ (s t : State) (M : Message), s.InvFor M → step s = .next t → t.InvFor (messageAfterStep s M)) ∧
  (∀ (n : Nat) (s : State) (M : Message), s.InvFor M →
    ∃ t : State, Sys2Proof.core.run n s = .next t ∧ t.InvFor (messageAfterRun n s M))

/-- From R28, R29 and R133: R29 holds after reset, whatever program the host then runs; `M` has no meaning yet (log
entry 14). -/
def Obligations.ResetMeetsTheInvariantOfItsMessage : Prop :=
  ∀ as : List Access, State.InvFor { State.reset with script := as } none

/-- From R81 and R88, "In ghost terms, DIGEST returns `Digest(M, m)` ... and leaves `M` unchanged": on a live engine whose `S`
and `pos` are those of `M`. The next DIGEST is then of `M` with what is absorbed meanwhile. -/
def Obligations.DigestReturnsTheDigestOfTheMessage : Prop :=
  ∀ (s : State) (bs xs : List Byte) (m m' : Mode), s.live = true → s.Represents bs →
    ∃ t u v, exec (digestInstr m) s = .next t ∧ t.dout = digestOfMessage bs m ∧ t.dvalid = true ∧ t.Represents bs ∧
      messageAfter (digestInstr m) s (some bs) = some bs ∧
      absorbBuf xs t = .next u ∧ u.Represents (bs ++ xs) ∧ messageAfterAll (xs.map .absorb) t (some bs) = some (bs ++ xs) ∧
      exec (digestInstr m') u = .next v ∧ v.dout = digestOfMessage (bs ++ xs) m'
end

