-- ==== Sys2Proof/Laws/Lanes.lean ====
section
/-! SUPPORT. The laws of the two views of a bank (`10_state.md` R16): what a byte or a lane reads as after each
operation of `Machine/Lanes.lean`, and that the bytes, or the lanes, determine the bank. -/

namespace Sys2Proof.Machine

@[simp] theorem rateIndex_byte_val (r : RateIndex) : (RateIndex.byte r).val = r.val := rfl

@[simp] theorem lastRateByte_val : lastRateByte.val = 135 := rfl

@[simp] theorem laneAt_lanesOf (f : Fin 5 → Fin 5 → Lane) (x y : Fin 5) : laneAt (lanesOf f) x y = f x y := by
  have hx : (x.val + 5 * y.val) % 5 = x.val := by omega
  have hy : (x.val + 5 * y.val) / 5 = y.val := by omega
  simp [laneAt, lanesOf, hx, hy]

theorem lanes_ext_laneAt {A B : Lanes} (h : ∀ x y, laneAt A x y = laneAt B x y) : A = B := by
  apply Vector.ext
  intro i hi
  have hxy := h ⟨i % 5, by omega⟩ ⟨i / 5, by omega⟩
  have hmod : i % 5 + 5 * (i / 5) = i := by omega
  simpa [laneAt, hmod] using hxy

theorem getLsbD_byteAt (A : Lanes) (k : ByteIndex) (b : Nat) (hb : b < 8) :
    (byteAt A k).getLsbD b = (A[k.val / 8]'(by omega)).getLsbD (8 * (k.val % 8) + b) := by
  simp [byteAt, hb]

theorem lanes_ext_byteAt {A B : Lanes} (h : ∀ k, byteAt A k = byteAt B k) : A = B := by
  apply Vector.ext
  intro i hi
  apply BitVec.eq_of_getLsbD_eq
  intro b hb
  have hk := congrArg (fun v => v.getLsbD (b % 8)) (h ⟨8 * i + b / 8, by omega⟩)
  have hdiv : (8 * i + b / 8) / 8 = i := by omega
  have hmod : 8 * (b / 8 % 8) + b % 8 = b := by omega
  rw [getLsbD_byteAt _ _ _ (by omega), getLsbD_byteAt _ _ _ (by omega)] at hk
  simpa [hdiv, hmod] using hk

theorem getLsbD_replaceByte (l : Lane) (j : Nat) (v : Byte) (b : Nat) (hb : b < 64) :
    (replaceByte l j v).getLsbD b = if b / 8 = j then v.getLsbD (b % 8) else l.getLsbD b := by
  have hff : ∀ n, (0xFF : Lane).getLsbD n = decide (n < 8) := by
    intro n
    by_cases hn : n < 64
    · revert n; decide
    · rw [BitVec.getLsbD_of_ge _ _ (by omega)]; simp; omega
  simp only [replaceByte, BitVec.getLsbD_or, BitVec.getLsbD_and, BitVec.getLsbD_not, BitVec.getLsbD_shiftLeft,
    BitVec.getLsbD_setWidth, hb, hff, decide_true, Bool.true_and]
  by_cases hlt : b < 8 * j
  · have hne : b / 8 ≠ j := by omega
    simp [hlt, hne]
  · by_cases hge : b - 8 * j < 8
    · have he : b / 8 = j := by omega
      have hm : b - 8 * j = b % 8 := by omega
      have h64 : b % 8 < 64 := by omega
      have h8 : b % 8 < 8 := by omega
      simp [hlt, he, hm, h64, h8]
    · have hne : b / 8 ≠ j := by omega
      have hv : v.getLsbD (b - 8 * j) = false := BitVec.getLsbD_of_ge _ _ (by omega)
      simp [hlt, hge, hne, hv]

@[simp] theorem byteAt_setByte (A : Lanes) (k j : ByteIndex) (v : Byte) :
    byteAt (setByte A k v) j = if j = k then v else byteAt A j := by
  have hk := k.isLt
  have hj := j.isLt
  apply BitVec.eq_of_getLsbD_eq
  intro b hb
  rw [getLsbD_byteAt _ _ _ hb]
  simp only [setByte, Vector.getElem_set]
  by_cases hl : k.val / 8 = j.val / 8
  · simp only [hl, if_true]
    rw [getLsbD_replaceByte _ _ _ _ (by omega)]
    by_cases hjk : j = k
    · subst hjk
      have h1 : (8 * (j.val % 8) + b) / 8 = j.val % 8 := by omega
      have h2 : (8 * (j.val % 8) + b) % 8 = b := by omega
      simp [h1, h2]
    · have hv : j.val ≠ k.val := fun h => hjk (Fin.ext h)
      have h1 : (8 * (j.val % 8) + b) / 8 ≠ k.val % 8 := by omega
      simp only [hjk, h1, if_false]
      rw [getLsbD_byteAt _ _ _ hb]
  · have hjk : j ≠ k := fun h => hl (by rw [h])
    simp only [hl, hjk, if_false]
    rw [getLsbD_byteAt _ _ _ hb]

@[simp] theorem byteAt_xorByte (A : Lanes) (k j : ByteIndex) (v : Byte) :
    byteAt (xorByte A k v) j = if j = k then byteAt A k ^^^ v else byteAt A j := by
  simp [xorByte]

@[simp] theorem byteAt_lanesOfBytes (f : ByteIndex → Byte) (k : ByteIndex) : byteAt (lanesOfBytes f) k = f k := by
  obtain ⟨k, hk⟩ := k
  have key : ∀ j, j < 8 → k % 8 = j → byteAt (lanesOfBytes f) ⟨k, hk⟩ = f ⟨k, hk⟩ := by
    intro j hj hkj
    have hidx : ∀ n, n = k → ∀ h : n < 200, f ⟨n, h⟩ = f ⟨k, hk⟩ := by
      intro n hn h; subst hn; rfl
    apply BitVec.eq_of_getLsbD_eq
    intro b hb
    rw [getLsbD_byteAt _ _ _ hb]
    simp only [lanesOfBytes, Vector.getElem_ofFn, hkj, BitVec.getLsbD_append]
    have : j = 0 ∨ j = 1 ∨ j = 2 ∨ j = 3 ∨ j = 4 ∨ j = 5 ∨ j = 6 ∨ j = 7 := by omega
    rcases this with h | h | h | h | h | h | h | h <;> subst h
    · rw [if_pos (by omega), hidx _ (by omega)]; congr 1; omega
    all_goals
      repeat rw [if_neg (by omega)]
      first
        | (rw [if_pos (by omega), hidx _ (by omega)]; congr 1; omega)
        | (rw [hidx _ (by omega)]; congr 1; omega)
  exact key (k % 8) (by omega) rfl

@[simp] theorem byteAt_xorBytes (A : Lanes) (f : ByteIndex → Byte) (k : ByteIndex) :
    byteAt (xorBytes A f) k = byteAt A k ^^^ f k := by
  simp [xorBytes]

end Sys2Proof.Machine
end

