-- ==== Sys2Proof/Laws/State.lean ====
section
/-! SUPPORT. One lemma per field and update of the state, each true by definition, so that no proof unfolds a record
update; and, for each composed update, the state it gives in one equation. -/

namespace Sys2Proof.Machine

@[simp] theorem bank_state (s : State) : s.bank .state = s.A := rfl
@[simp] theorem bank_scratch (s : State) : s.bank .scratch = s.TA := rfl

@[simp] theorem withBank_state_A (s : State) (X : Lanes) : (s.withBank .state X).A = X := rfl
@[simp] theorem withBank_state_pos (s : State) (X : Lanes) : (s.withBank .state X).pos = s.pos := rfl
@[simp] theorem withBank_state_live (s : State) (X : Lanes) : (s.withBank .state X).live = s.live := rfl
@[simp] theorem withBank_state_TA (s : State) (X : Lanes) : (s.withBank .state X).TA = s.TA := rfl
@[simp] theorem withBank_state_dout (s : State) (X : Lanes) : (s.withBank .state X).dout = s.dout := rfl
@[simp] theorem withBank_state_dvalid (s : State) (X : Lanes) : (s.withBank .state X).dvalid = s.dvalid := rfl
@[simp] theorem withBank_state_ill (s : State) (X : Lanes) : (s.withBank .state X).ill = s.ill := rfl
@[simp] theorem withBank_state_uaw (s : State) (X : Lanes) : (s.withBank .state X).uaw = s.uaw := rfl
@[simp] theorem withBank_state_rnd (s : State) (X : Lanes) : (s.withBank .state X).rnd = s.rnd := rfl
@[simp] theorem withBank_state_script (s : State) (X : Lanes) : (s.withBank .state X).script = s.script := rfl
@[simp] theorem withBank_state_responses (s : State) (X : Lanes) : (s.withBank .state X).responses = s.responses := rfl

@[simp] theorem withBank_scratch_A (s : State) (X : Lanes) : (s.withBank .scratch X).A = s.A := rfl
@[simp] theorem withBank_scratch_pos (s : State) (X : Lanes) : (s.withBank .scratch X).pos = s.pos := rfl
@[simp] theorem withBank_scratch_live (s : State) (X : Lanes) : (s.withBank .scratch X).live = s.live := rfl
@[simp] theorem withBank_scratch_TA (s : State) (X : Lanes) : (s.withBank .scratch X).TA = X := rfl
@[simp] theorem withBank_scratch_dout (s : State) (X : Lanes) : (s.withBank .scratch X).dout = s.dout := rfl
@[simp] theorem withBank_scratch_dvalid (s : State) (X : Lanes) : (s.withBank .scratch X).dvalid = s.dvalid := rfl
@[simp] theorem withBank_scratch_ill (s : State) (X : Lanes) : (s.withBank .scratch X).ill = s.ill := rfl
@[simp] theorem withBank_scratch_uaw (s : State) (X : Lanes) : (s.withBank .scratch X).uaw = s.uaw := rfl
@[simp] theorem withBank_scratch_rnd (s : State) (X : Lanes) : (s.withBank .scratch X).rnd = s.rnd := rfl
@[simp] theorem withBank_scratch_script (s : State) (X : Lanes) : (s.withBank .scratch X).script = s.script := rfl
@[simp] theorem withBank_scratch_responses (s : State) (X : Lanes) : (s.withBank .scratch X).responses = s.responses := rfl

@[simp] theorem permuteBank_state_A (s : State) : (permuteBank .state s).A = keccakF s.A := rfl
@[simp] theorem permuteBank_state_pos (s : State) : (permuteBank .state s).pos = s.pos := rfl
@[simp] theorem permuteBank_state_live (s : State) : (permuteBank .state s).live = s.live := rfl
@[simp] theorem permuteBank_state_TA (s : State) : (permuteBank .state s).TA = s.TA := rfl
@[simp] theorem permuteBank_state_dout (s : State) : (permuteBank .state s).dout = s.dout := rfl
@[simp] theorem permuteBank_state_dvalid (s : State) : (permuteBank .state s).dvalid = s.dvalid := rfl
@[simp] theorem permuteBank_state_ill (s : State) : (permuteBank .state s).ill = s.ill := rfl
@[simp] theorem permuteBank_state_uaw (s : State) : (permuteBank .state s).uaw = s.uaw := rfl
@[simp] theorem permuteBank_state_rnd (s : State) : (permuteBank .state s).rnd = 0 := rfl
@[simp] theorem permuteBank_state_script (s : State) : (permuteBank .state s).script = s.script := rfl
@[simp] theorem permuteBank_state_responses (s : State) : (permuteBank .state s).responses = s.responses := rfl

@[simp] theorem permuteBank_scratch_A (s : State) : (permuteBank .scratch s).A = s.A := rfl
@[simp] theorem permuteBank_scratch_pos (s : State) : (permuteBank .scratch s).pos = s.pos := rfl
@[simp] theorem permuteBank_scratch_live (s : State) : (permuteBank .scratch s).live = s.live := rfl
@[simp] theorem permuteBank_scratch_TA (s : State) : (permuteBank .scratch s).TA = keccakF s.TA := rfl
@[simp] theorem permuteBank_scratch_dout (s : State) : (permuteBank .scratch s).dout = s.dout := rfl
@[simp] theorem permuteBank_scratch_dvalid (s : State) : (permuteBank .scratch s).dvalid = s.dvalid := rfl
@[simp] theorem permuteBank_scratch_ill (s : State) : (permuteBank .scratch s).ill = s.ill := rfl
@[simp] theorem permuteBank_scratch_uaw (s : State) : (permuteBank .scratch s).uaw = s.uaw := rfl
@[simp] theorem permuteBank_scratch_rnd (s : State) : (permuteBank .scratch s).rnd = 0 := rfl
@[simp] theorem permuteBank_scratch_script (s : State) : (permuteBank .scratch s).script = s.script := rfl
@[simp] theorem permuteBank_scratch_responses (s : State) : (permuteBank .scratch s).responses = s.responses := rfl

@[simp] theorem recordFault_ill_A (s : State) : (recordFault .ill s).A = s.A := rfl
@[simp] theorem recordFault_ill_pos (s : State) : (recordFault .ill s).pos = s.pos := rfl
@[simp] theorem recordFault_ill_live (s : State) : (recordFault .ill s).live = s.live := rfl
@[simp] theorem recordFault_ill_TA (s : State) : (recordFault .ill s).TA = s.TA := rfl
@[simp] theorem recordFault_ill_dout (s : State) : (recordFault .ill s).dout = s.dout := rfl
@[simp] theorem recordFault_ill_dvalid (s : State) : (recordFault .ill s).dvalid = s.dvalid := rfl
@[simp] theorem recordFault_ill_ill (s : State) : (recordFault .ill s).ill = true := rfl
@[simp] theorem recordFault_ill_uaw (s : State) : (recordFault .ill s).uaw = s.uaw := rfl
@[simp] theorem recordFault_ill_rnd (s : State) : (recordFault .ill s).rnd = s.rnd := rfl
@[simp] theorem recordFault_ill_script (s : State) : (recordFault .ill s).script = s.script := rfl
@[simp] theorem recordFault_ill_responses (s : State) : (recordFault .ill s).responses = s.responses := rfl

@[simp] theorem recordFault_uaw_A (s : State) : (recordFault .uaw s).A = s.A := rfl
@[simp] theorem recordFault_uaw_pos (s : State) : (recordFault .uaw s).pos = s.pos := rfl
@[simp] theorem recordFault_uaw_live (s : State) : (recordFault .uaw s).live = s.live := rfl
@[simp] theorem recordFault_uaw_TA (s : State) : (recordFault .uaw s).TA = s.TA := rfl
@[simp] theorem recordFault_uaw_dout (s : State) : (recordFault .uaw s).dout = s.dout := rfl
@[simp] theorem recordFault_uaw_dvalid (s : State) : (recordFault .uaw s).dvalid = s.dvalid := rfl
@[simp] theorem recordFault_uaw_ill (s : State) : (recordFault .uaw s).ill = s.ill := rfl
@[simp] theorem recordFault_uaw_uaw (s : State) : (recordFault .uaw s).uaw = true := rfl
@[simp] theorem recordFault_uaw_rnd (s : State) : (recordFault .uaw s).rnd = s.rnd := rfl
@[simp] theorem recordFault_uaw_script (s : State) : (recordFault .uaw s).script = s.script := rfl
@[simp] theorem recordFault_uaw_responses (s : State) : (recordFault .uaw s).responses = s.responses := rfl

@[simp] theorem clearContext_A (l : Bool) (s : State) : (clearContext l s).A = zeroLanes := rfl
@[simp] theorem clearContext_pos (l : Bool) (s : State) : (clearContext l s).pos = 0 := rfl
@[simp] theorem clearContext_live (l : Bool) (s : State) : (clearContext l s).live = l := rfl
@[simp] theorem clearContext_TA (l : Bool) (s : State) : (clearContext l s).TA = zeroLanes := rfl
@[simp] theorem clearContext_dout (l : Bool) (s : State) : (clearContext l s).dout = zeroDigest := rfl
@[simp] theorem clearContext_dvalid (l : Bool) (s : State) : (clearContext l s).dvalid = false := rfl
@[simp] theorem clearContext_ill (l : Bool) (s : State) : (clearContext l s).ill = s.ill := rfl
@[simp] theorem clearContext_uaw (l : Bool) (s : State) : (clearContext l s).uaw = s.uaw := rfl
@[simp] theorem clearContext_rnd (l : Bool) (s : State) : (clearContext l s).rnd = 0 := rfl
@[simp] theorem clearContext_script (l : Bool) (s : State) : (clearContext l s).script = s.script := rfl
@[simp] theorem clearContext_responses (l : Bool) (s : State) : (clearContext l s).responses = s.responses := rfl

@[simp] theorem hardReset_A (s : State) : (hardReset s).A = zeroLanes := rfl
@[simp] theorem hardReset_pos (s : State) : (hardReset s).pos = 0 := rfl
@[simp] theorem hardReset_live (s : State) : (hardReset s).live = false := rfl
@[simp] theorem hardReset_TA (s : State) : (hardReset s).TA = zeroLanes := rfl
@[simp] theorem hardReset_dout (s : State) : (hardReset s).dout = zeroDigest := rfl
@[simp] theorem hardReset_dvalid (s : State) : (hardReset s).dvalid = false := rfl
@[simp] theorem hardReset_ill (s : State) : (hardReset s).ill = false := rfl
@[simp] theorem hardReset_uaw (s : State) : (hardReset s).uaw = false := rfl
@[simp] theorem hardReset_rnd (s : State) : (hardReset s).rnd = 0 := rfl
@[simp] theorem hardReset_script (s : State) : (hardReset s).script = s.script := rfl
@[simp] theorem hardReset_responses (s : State) : (hardReset s).responses = s.responses := rfl

@[simp] theorem respond_A (r : Response) (s : State) : (respond r s).A = s.A := rfl
@[simp] theorem respond_pos (r : Response) (s : State) : (respond r s).pos = s.pos := rfl
@[simp] theorem respond_live (r : Response) (s : State) : (respond r s).live = s.live := rfl
@[simp] theorem respond_TA (r : Response) (s : State) : (respond r s).TA = s.TA := rfl
@[simp] theorem respond_dout (r : Response) (s : State) : (respond r s).dout = s.dout := rfl
@[simp] theorem respond_dvalid (r : Response) (s : State) : (respond r s).dvalid = s.dvalid := rfl
@[simp] theorem respond_ill (r : Response) (s : State) : (respond r s).ill = s.ill := rfl
@[simp] theorem respond_uaw (r : Response) (s : State) : (respond r s).uaw = s.uaw := rfl
@[simp] theorem respond_rnd (r : Response) (s : State) : (respond r s).rnd = s.rnd := rfl
@[simp] theorem respond_script (r : Response) (s : State) : (respond r s).script = s.script := rfl
@[simp] theorem respond_responses (r : Response) (s : State) : (respond r s).responses = s.responses ++ [r] := rfl

@[simp] theorem copyToScratch_A (s : State) : (copyToScratch s).A = s.A := rfl
@[simp] theorem copyToScratch_pos (s : State) : (copyToScratch s).pos = s.pos := rfl
@[simp] theorem copyToScratch_live (s : State) : (copyToScratch s).live = s.live := rfl
@[simp] theorem copyToScratch_TA (s : State) : (copyToScratch s).TA = s.A := rfl
@[simp] theorem copyToScratch_dout (s : State) : (copyToScratch s).dout = s.dout := rfl
@[simp] theorem copyToScratch_dvalid (s : State) : (copyToScratch s).dvalid = s.dvalid := rfl
@[simp] theorem copyToScratch_ill (s : State) : (copyToScratch s).ill = s.ill := rfl
@[simp] theorem copyToScratch_uaw (s : State) : (copyToScratch s).uaw = s.uaw := rfl
@[simp] theorem copyToScratch_rnd (s : State) : (copyToScratch s).rnd = s.rnd := rfl
@[simp] theorem copyToScratch_script (s : State) : (copyToScratch s).script = s.script := rfl
@[simp] theorem copyToScratch_responses (s : State) : (copyToScratch s).responses = s.responses := rfl

@[simp] theorem padScratch_A (m : Mode) (r : RateIndex) (s : State) : (padScratch m r s).A = s.A := rfl
@[simp] theorem padScratch_pos (m : Mode) (r : RateIndex) (s : State) : (padScratch m r s).pos = s.pos := rfl
@[simp] theorem padScratch_live (m : Mode) (r : RateIndex) (s : State) : (padScratch m r s).live = s.live := rfl
@[simp] theorem padScratch_TA (m : Mode) (r : RateIndex) (s : State) : (padScratch m r s).TA = xorByte (xorByte s.TA r.byte (padByte m)) lastRateByte padFinal := rfl
@[simp] theorem padScratch_dout (m : Mode) (r : RateIndex) (s : State) : (padScratch m r s).dout = s.dout := rfl
@[simp] theorem padScratch_dvalid (m : Mode) (r : RateIndex) (s : State) : (padScratch m r s).dvalid = s.dvalid := rfl
@[simp] theorem padScratch_ill (m : Mode) (r : RateIndex) (s : State) : (padScratch m r s).ill = s.ill := rfl
@[simp] theorem padScratch_uaw (m : Mode) (r : RateIndex) (s : State) : (padScratch m r s).uaw = s.uaw := rfl
@[simp] theorem padScratch_rnd (m : Mode) (r : RateIndex) (s : State) : (padScratch m r s).rnd = s.rnd := rfl
@[simp] theorem padScratch_script (m : Mode) (r : RateIndex) (s : State) : (padScratch m r s).script = s.script := rfl
@[simp] theorem padScratch_responses (m : Mode) (r : RateIndex) (s : State) : (padScratch m r s).responses = s.responses := rfl

@[simp] theorem extractDigest_A (s : State) : (extractDigest s).A = s.A := rfl
@[simp] theorem extractDigest_pos (s : State) : (extractDigest s).pos = s.pos := rfl
@[simp] theorem extractDigest_live (s : State) : (extractDigest s).live = s.live := rfl
@[simp] theorem extractDigest_TA (s : State) : (extractDigest s).TA = s.TA := rfl
@[simp] theorem extractDigest_dout (s : State) : (extractDigest s).dout = digestOf s.TA := rfl
@[simp] theorem extractDigest_dvalid (s : State) : (extractDigest s).dvalid = true := rfl
@[simp] theorem extractDigest_ill (s : State) : (extractDigest s).ill = s.ill := rfl
@[simp] theorem extractDigest_uaw (s : State) : (extractDigest s).uaw = s.uaw := rfl
@[simp] theorem extractDigest_rnd (s : State) : (extractDigest s).rnd = s.rnd := rfl
@[simp] theorem extractDigest_script (s : State) : (extractDigest s).script = s.script := rfl
@[simp] theorem extractDigest_responses (s : State) : (extractDigest s).responses = s.responses := rfl

@[simp] theorem wipeScratch_A (s : State) : (wipeScratch s).A = s.A := rfl
@[simp] theorem wipeScratch_pos (s : State) : (wipeScratch s).pos = s.pos := rfl
@[simp] theorem wipeScratch_live (s : State) : (wipeScratch s).live = s.live := rfl
@[simp] theorem wipeScratch_TA (s : State) : (wipeScratch s).TA = zeroLanes := rfl
@[simp] theorem wipeScratch_dout (s : State) : (wipeScratch s).dout = s.dout := rfl
@[simp] theorem wipeScratch_dvalid (s : State) : (wipeScratch s).dvalid = s.dvalid := rfl
@[simp] theorem wipeScratch_ill (s : State) : (wipeScratch s).ill = s.ill := rfl
@[simp] theorem wipeScratch_uaw (s : State) : (wipeScratch s).uaw = s.uaw := rfl
@[simp] theorem wipeScratch_rnd (s : State) : (wipeScratch s).rnd = s.rnd := rfl
@[simp] theorem wipeScratch_script (s : State) : (wipeScratch s).script = s.script := rfl
@[simp] theorem wipeScratch_responses (s : State) : (wipeScratch s).responses = s.responses := rfl

/-- DIGEST on a live context as one update (`42_digest.md` R75). -/
theorem digestAt_eq (m : Mode) (r : RateIndex) (s : State) :
    digestAt m r s =
      { s with
        TA     := zeroLanes
        dout   := digestOf (keccakF (xorByte (xorByte s.A r.byte (padByte m)) lastRateByte padFinal))
        dvalid := true
        rnd    := 0 } := rfl

end Sys2Proof.Machine
end

