-- ==== Sys2Proof/Laws/Ops.lean ====
section
/-! SUPPORT. One spec lemma per shared operation: what it answers under which condition, and, where it answers a next
state, everything that state can be. Provers cite these instead of unfolding the operation. -/

namespace Sys2Proof.Machine

/-! ### The guard of the hash commands -/

theorem onLiveContext_live {s : State} (hl : s.live = true) (hp : s.pos.toNat < 136) (e : RateIndex → State) :
    onLiveContext s e = .next (e ⟨s.pos.toNat, hp⟩) := by
  simp [onLiveContext, hl, hp]

theorem onLiveContext_dead {s : State} (hl : s.live = false) (e : RateIndex → State) :
    onLiveContext s e = .next { s with uaw := true } := by
  simp [onLiveContext, hl, recordFault]

theorem onLiveContext_stuck {s : State} (hl : s.live = true) (hp : ¬ s.pos.toNat < 136) (e : RateIndex → State) :
    onLiveContext s e = .fault .cursorOutOfRange := by
  simp [onLiveContext, hl, hp]

/-- Everything `onLiveContext` can do when it answers a next state. -/
theorem onLiveContext_next {s t : State} {e : RateIndex → State} (h : onLiveContext s e = .next t) :
    (s.live = false ∧ t = { s with uaw := true }) ∨
      (s.live = true ∧ ∃ hp : s.pos.toNat < 136, t = e ⟨s.pos.toNat, hp⟩) := by
  rcases Bool.eq_false_or_eq_true s.live with hl | hl
  · by_cases hp : s.pos.toNat < 136
    · rw [onLiveContext_live hl hp] at h
      exact .inr ⟨hl, hp, (Host.Outcome.next.inj h).symm⟩
    · rw [onLiveContext_stuck hl hp] at h
      cases h
  · rw [onLiveContext_dead hl] at h
    exact .inl ⟨hl, (Host.Outcome.next.inj h).symm⟩

/-! ### ABSORB on a live context -/

/-- The cursor short of the last rate byte: no permutation. -/
theorem absorbAt_of_ne {s : State} {r : RateIndex} (hr : s.pos.toNat = r.val) (hne : r.val ≠ 135) (d : Byte) :
    absorbAt d r s = { s with A := xorByte s.A r.byte d, pos := s.pos + 1 } := by
  have hpos : s.pos + 1#8 ≠ 136#8 := by
    intro h
    have := congrArg BitVec.toNat h
    simp [BitVec.toNat_add] at this
    omega
  simp [absorbAt, hpos]

/-- The cursor at the last rate byte: the block is full. -/
theorem absorbAt_of_eq {s : State} {r : RateIndex} (hr : s.pos.toNat = r.val) (he : r.val = 135) (d : Byte) :
    absorbAt d r s = { s with A := keccakF (xorByte s.A r.byte d), pos := 0, rnd := 0 } := by
  have hpos : s.pos + 1#8 = 136#8 := by
    apply BitVec.eq_of_toNat_eq
    simp [BitVec.toNat_add]
    omega
  simp [absorbAt, hpos, permuteBank, State.withBank]

/-! ### The commands -/

theorem exec_init (s : State) : exec .init s = .next (clearContext true s) := rfl

theorem exec_wipe (s : State) : exec .wipe s = .next (clearContext false s) := rfl

theorem exec_absorb_live {s : State} (hl : s.live = true) (hp : s.pos.toNat < 136) (d : Byte) :
    exec (.absorb d) s = .next (absorbAt d ⟨s.pos.toNat, hp⟩ s) :=
  onLiveContext_live hl hp fun r => absorbAt d r s

theorem exec_absorb_dead {s : State} (hl : s.live = false) (d : Byte) :
    exec (.absorb d) s = .next { s with uaw := true } :=
  onLiveContext_dead hl fun r => absorbAt d r s

theorem exec_absorb_stuck {s : State} (hl : s.live = true) (hp : ¬ s.pos.toNat < 136) (d : Byte) :
    exec (.absorb d) s = .fault .cursorOutOfRange :=
  onLiveContext_stuck hl hp fun r => absorbAt d r s

theorem exec_digest (m : Mode) (s : State) : exec (digestInstr m) s = digestIn m s := by cases m <;> rfl

theorem exec_digest_live {s : State} (hl : s.live = true) (hp : s.pos.toNat < 136) (m : Mode) :
    exec (digestInstr m) s = .next (digestAt m ⟨s.pos.toNat, hp⟩ s) := by
  rw [exec_digest]; exact onLiveContext_live hl hp _

theorem exec_digest_dead {s : State} (hl : s.live = false) (m : Mode) :
    exec (digestInstr m) s = .next { s with uaw := true } := by
  rw [exec_digest]; exact onLiveContext_dead hl _

theorem exec_digest_stuck {s : State} (hl : s.live = true) (hp : ¬ s.pos.toNat < 136) (m : Mode) :
    exec (digestInstr m) s = .fault .cursorOutOfRange := by
  rw [exec_digest]; exact onLiveContext_stuck hl hp _

/-- Everything a command can do when it answers a next state. -/
theorem exec_next {i : Instr} {s t : State} (h : exec i s = .next t) :
    (i = .init ∧ t = clearContext true s) ∨
      (i = .wipe ∧ t = clearContext false s) ∨
      (∃ d, i = .absorb d ∧ s.live = false ∧ t = { s with uaw := true }) ∨
      (∃ m, i = digestInstr m ∧ s.live = false ∧ t = { s with uaw := true }) ∨
      (∃ d, i = .absorb d ∧ s.live = true ∧ ∃ hp : s.pos.toNat < 136, t = absorbAt d ⟨s.pos.toNat, hp⟩ s) ∨
      (∃ m, i = digestInstr m ∧ s.live = true ∧ ∃ hp : s.pos.toNat < 136, t = digestAt m ⟨s.pos.toNat, hp⟩ s) := by
  have hdig : ∀ m, exec (digestInstr m) s = .next t → i = digestInstr m →
      (∃ m, i = digestInstr m ∧ s.live = false ∧ t = { s with uaw := true }) ∨
        (∃ m, i = digestInstr m ∧ s.live = true ∧ ∃ hp : s.pos.toNat < 136, t = digestAt m ⟨s.pos.toNat, hp⟩ s) := by
    intro m hm hi
    rw [exec_digest] at hm
    rcases onLiveContext_next hm with ⟨hl, ht⟩ | ⟨hl, hp, ht⟩
    · exact .inl ⟨m, hi, hl, ht⟩
    · exact .inr ⟨m, hi, hl, hp, ht⟩
  cases i with
  | init => exact .inl ⟨rfl, (Host.Outcome.next.inj h).symm⟩
  | wipe => exact .inr (.inl ⟨rfl, (Host.Outcome.next.inj h).symm⟩)
  | absorb d =>
    rcases onLiveContext_next (e := fun r => absorbAt d r s) h with ⟨hl, ht⟩ | ⟨hl, hp, ht⟩
    · exact .inr (.inr (.inl ⟨d, rfl, hl, ht⟩))
    · exact .inr (.inr (.inr (.inr (.inl ⟨d, rfl, hl, hp, ht⟩))))
  | digestSha3 =>
    rcases hdig .standard h rfl with h | h
    · exact .inr (.inr (.inr (.inl h)))
    · exact .inr (.inr (.inr (.inr (.inr h))))
  | digestKeccak =>
    rcases hdig .legacyKeccak h rfl with h | h
    · exact .inr (.inr (.inr (.inl h)))
    · exact .inr (.inr (.inr (.inr (.inr h))))

/-! ### A command word -/

/-- R50: the four fields are the word. -/
theorem toWord_ofWord (w : Word) : (Fields.ofWord w).toWord = w := by
  apply BitVec.eq_of_getLsbD_eq
  intro b hb
  simp only [Fields.toWord, Fields.ofWord, BitVec.getLsbD_append, BitVec.getLsbD_extractLsb']
  split_ifs with h1 h2 h3
  · simp [h1]
  · have : 8 + (b - 8) = b := by omega
    simp [h2, this]
  · have : 9 + (b - 8 - 1) = b := by omega
    simp [h3, this]
  · have h4 : b - 8 - 1 - 19 < 4 := by omega
    have : 28 + (b - 8 - 1 - 19) = b := by omega
    simp [h4, this]

theorem ofWord_toWord (f : Fields) : Fields.ofWord f.toWord = f := by
  obtain ⟨op, rsv, mode, data⟩ := f
  simp only [Fields.ofWord, Fields.toWord, Fields.mk.injEq]
  refine ⟨?_, ?_, ?_, ?_⟩ <;> apply BitVec.eq_of_getLsbD_eq <;> intro b hb <;>
    simp only [BitVec.getLsbD_append, BitVec.getLsbD_extractLsb', hb, decide_true, Bool.true_and]
  · rw [if_neg (by omega), if_neg (by omega), if_neg (by omega)]; congr 1; omega
  · rw [if_neg (by omega), if_neg (by omega), if_pos (by omega)]; congr 1; omega
  · rw [if_neg (by omega), if_pos (by omega)]; congr 1; omega
  · rw [if_pos (by omega)]; congr 1; omega

theorem execWord_illegal {w : Word} {e : Illegal} (h : decode w = .error e) (s : State) :
    execWord w s = .next { s with ill := true } := by
  simp [execWord, h, recordFault]

theorem execWord_legal {w : Word} {i : Instr} (h : decode w = .ok i) (s : State) : execWord w s = exec i s := by
  simp [execWord, h]

/-- Everything a command write can do when it answers a next state. -/
theorem execWord_next {w : Word} {s t : State} (h : execWord w s = .next t) :
    (∃ e, decode w = .error e ∧ t = { s with ill := true }) ∨ (∃ i, decode w = .ok i ∧ exec i s = .next t) := by
  cases hd : decode w with
  | error e =>
    rw [execWord_illegal hd] at h
    exact .inl ⟨e, rfl, (Host.Outcome.next.inj h).symm⟩
  | ok i =>
    rw [execWord_legal hd] at h
    exact .inr ⟨i, rfl, h⟩

/-! ### A host access -/

theorem selectReg_word (r : Reg) : selectReg .word r.offset = some r := by
  cases r with
  | dout j =>
    have hj := j.isLt
    have h : 0x10 ≤ 0x10 + 4 * j.val ∧ 0x10 + 4 * j.val < 0x30 ∧ (0x10 + 4 * j.val) % 4 = 0 := by omega
    have hd : (0x10 + 4 * j.val - 0x10) / 4 = j.val := by omega
    have h4 : ¬ (0x10 + 4 * j.val = 0x04) ∧ ¬ (0x10 + 4 * j.val = 0x08) ∧ ¬ (0x10 + 4 * j.val = 0x0C) := by omega
    simp only [selectReg, Reg.offset, regAt, h.2.2, if_true, h4, if_false, h, and_self, dite_true, hd]
    simp
  | _ => rfl

/-- The offset of a register that an access reaches (R37, R39). -/
theorem selectReg_some {width : Width} {off : Nat} {r : Reg} (h : selectReg width off = some r) :
    width = .word ∧ off = r.offset := by
  unfold selectReg at h
  split at h
  · rename_i hw
    refine ⟨hw.1, ?_⟩
    unfold regAt at h
    split_ifs at h with h0 h4 h8 hC hd <;> cases h <;> simp only [Reg.offset] <;> omega
  · cases h

theorem selectReg_none {width : Width} {off : Nat} (h : width ≠ .word ∨ off % 4 ≠ 0 ∨ 0x30 ≤ off) :
    selectReg width off = none := by
  rcases hs : selectReg width off with _ | r
  · rfl
  · obtain ⟨hw, ho⟩ := selectReg_some hs
    exfalso
    subst ho
    rcases h with h | h | h
    · exact h hw
    · revert h; cases r <;> simp only [Reg.offset] <;> omega
    · revert h; cases r <;> simp only [Reg.offset] <;> omega

theorem regWrite_cmd (w : Word) (s : State) : regWrite .word 0 w s = completeWrite (execWord w s) := rfl

/-- Everything a write can do when it answers a next state. -/
theorem regWrite_next {width : Width} {off : Nat} {v : Word} {s t : State} (h : regWrite width off v s = .next t) :
    (width = .word ∧ off = 0 ∧ ∃ u, execWord v s = .next u ∧ t = respond .done u) ∨
      (¬ (width = .word ∧ off = 0) ∧ t = respond .busError s) := by
  by_cases hc : width = .word ∧ off = 0
  · obtain ⟨rfl, rfl⟩ := hc
    rw [regWrite_cmd] at h
    cases hx : execWord v s with
    | next u => rw [hx] at h; exact .inl ⟨rfl, rfl, u, rfl, (Host.Outcome.next.inj h).symm⟩
    | fault f => rw [hx] at h; cases h
    | refused r => rw [hx] at h; cases h
  · refine .inr ⟨hc, ?_⟩
    unfold regWrite at h
    split at h
    · rename_i hs
      exact absurd (selectReg_some hs) hc
    · exact (Host.Outcome.next.inj h).symm

/-- A read changes nothing but what the host has got back (R41). -/
theorem regRead_eq (width : Width) (off : Nat) (s : State) : ∃ r, regRead width off s = respond r s := by
  unfold regRead
  split
  · exact ⟨_, rfl⟩
  · exact ⟨_, rfl⟩

/-! ### A step -/

theorem step_nil {s : State} (h : s.script = []) : step s = .next s := by
  simp [step, h]

theorem step_cons {s : State} {a : Access} {rest : List Access} (h : s.script = a :: rest) :
    step s = performAccess a { s with script := rest } := by
  simp [step, h]

theorem step_command {s : State} {w : Word} {rest : List Access} (h : s.script = commandWrite w :: rest) :
    step s = completeWrite (execWord w { s with script := rest }) := by
  rw [step_cons h]; rfl

/-- Everything a step can do when it answers a next state. -/
theorem step_next {s t : State} (h : step s = .next t) :
    (s.script = [] ∧ t = s) ∨
      ∃ a rest, s.script = a :: rest ∧
        ((a = .reset ∧ t = hardReset { s with script := rest }) ∨
         (∃ r, t = respond r { s with script := rest } ∧ ∀ w, a ≠ commandWrite w) ∨
         (∃ w u, a = commandWrite w ∧ execWord w { s with script := rest } = .next u ∧ t = respond .done u)) := by
  cases hs : s.script with
  | nil =>
    rw [step_nil hs] at h
    exact .inl ⟨rfl, (Host.Outcome.next.inj h).symm⟩
  | cons a rest =>
    refine .inr ⟨a, rest, rfl, ?_⟩
    rw [step_cons hs] at h
    cases a with
    | reset => exact .inl ⟨rfl, (Host.Outcome.next.inj h).symm⟩
    | read width off =>
      obtain ⟨r, hr⟩ := regRead_eq width off { s with script := rest }
      refine .inr (.inl ⟨r, ?_, by intro w hw; cases hw⟩)
      rw [← hr]; exact (Host.Outcome.next.inj h).symm
    | write width off v =>
      rcases regWrite_next h with ⟨rfl, rfl, u, hu, ht⟩ | ⟨hc, ht⟩
      · exact .inr (.inr ⟨v, u, rfl, hu, ht⟩)
      · refine .inr (.inl ⟨_, ht, ?_⟩)
        intro w hw
        cases hw
        exact hc ⟨rfl, rfl⟩

/-! ### Lists of commands -/

theorem execAll_append (is js : List Instr) (s : State) :
    execAll (is ++ js) s =
      match execAll is s with
      | .next t    => execAll js t
      | .fault f   => .fault f
      | .refused r => .refused r := by
  induction is generalizing s with
  | nil => rfl
  | cons i is ih =>
    simp only [List.cons_append, execAll]
    cases exec i s <;> simp [ih]

/-- No command touches the host's side of the state. -/
theorem exec_host {i : Instr} {s t : State} (h : exec i s = .next t) :
    t.script = s.script ∧ t.responses = s.responses := by
  rcases exec_next h with ⟨_, rfl⟩ | ⟨_, rfl⟩ | ⟨_, _, _, rfl⟩ | ⟨_, _, _, rfl⟩ | ⟨d, _, _, hp, rfl⟩ | ⟨m, _, _, hp, rfl⟩
  · simp
  · simp
  · simp
  · simp
  · by_cases he : s.pos.toNat = 135
    · rw [absorbAt_of_eq rfl he]; simp
    · rw [absorbAt_of_ne rfl he]; simp
  · rw [digestAt_eq]; simp

/-- R73: the state of the empty message. -/
@[simp] theorem absorbedLanes_nil : absorbedLanes [] = zeroLanes := by decide +kernel

/-- R48: the offset the engine sees does not depend on where the platform puts the block. Rests on addresses that never wrap,
the model's choice (log entry 15). -/
@[simp] theorem offsetOfAddress_platformAddress (off : Nat) : offsetOfAddress (platformAddress off) = some off := by
  simp [offsetOfAddress, platformAddress]

end Sys2Proof.Machine
end

