-- ==== Sys2Proof/Laws/Message.lean ====
section
/-! SUPPORT. What the ghost message of `10_state.md` R28 is after each command, word, access and step; one lemma says what a
step can do to it and to the state together. -/

namespace Sys2Proof.Machine

@[simp] theorem messageAfter_init (s : State) (M : Message) : messageAfter .init s M = some [] := rfl
@[simp] theorem messageAfter_wipe (s : State) (M : Message) : messageAfter .wipe s M = none := rfl
@[simp] theorem messageAfter_digest (m : Mode) (s : State) (M : Message) : messageAfter (digestInstr m) s M = M := by
  cases m <;> rfl

theorem messageAfter_absorb_live {s : State} (hl : s.live = true) (d : Byte) (M : Message) :
    messageAfter (.absorb d) s M = M.map (· ++ [d]) := by simp [messageAfter, hl]

theorem messageAfter_absorb_dead {s : State} (hl : s.live = false) (d : Byte) (M : Message) :
    messageAfter (.absorb d) s M = M := by simp [messageAfter, hl]

/-- The message looks at nothing of the state but `LIVE`. -/
theorem messageAfter_congr {s t : State} (h : s.live = t.live) (i : Instr) (M : Message) :
    messageAfter i s M = messageAfter i t M := by cases i <;> simp [messageAfter, h]

theorem messageAfterWord_illegal {w : Word} {e : Illegal} (h : decode w = .error e) (s : State) (M : Message) :
    messageAfterWord w s M = M := by simp [messageAfterWord, h]

theorem messageAfterWord_legal {w : Word} {i : Instr} (h : decode w = .ok i) (s : State) (M : Message) :
    messageAfterWord w s M = messageAfter i s M := by simp [messageAfterWord, h]

@[simp] theorem messageAfterStep_command {s : State} {w : Word} {rest : List Access} (h : s.script = commandWrite w :: rest)
    (M : Message) : messageAfterStep s M = messageAfterWord w s M := by
  simp only [messageAfterStep, h]; rfl

theorem messageAfterAll_cons {i : Instr} {s t : State} (h : exec i s = .next t) (is : List Instr) (M : Message) :
    messageAfterAll (i :: is) s M = messageAfterAll is t (messageAfter i s M) := by simp [messageAfterAll, h]

theorem messageAfterRun_succ {s t : State} (h : step s = .next t) (n : Nat) (M : Message) :
    messageAfterRun (n + 1) s M = messageAfterRun n t (messageAfterStep s M) := by simp [messageAfterRun, h]

/-- A write the bus does not pass on to `CMD` leaves the message. -/
theorem messageAfterAccess_write {width : Width} {off : Nat} (h : ¬ (width = .word ∧ off = 0)) (v : Word) (s : State)
    (M : Message) : messageAfterAccess (.write width off v) s M = M := by
  simp only [messageAfterAccess]
  split
  · exact absurd (selectReg_some ‹_›) h
  · rfl

/-- Everything a step that answers a next state can do to the state and to the message beside it. -/
theorem step_message {s t : State} (h : step s = .next t) (M : Message) :
    (t = s ∧ messageAfterStep s M = M) ∨
      ∃ rest, (t = hardReset { s with script := rest } ∧ messageAfterStep s M = none) ∨
        (∃ r, t = respond r { s with script := rest } ∧ messageAfterStep s M = M) ∨
        ∃ w u, execWord w { s with script := rest } = .next u ∧ t = respond .done u ∧
          messageAfterStep s M = messageAfterWord w { s with script := rest } M := by
  cases hs : s.script with
  | nil =>
    rw [step_nil hs] at h
    exact .inl ⟨(Host.Outcome.next.inj h).symm, by simp [messageAfterStep, hs]⟩
  | cons a rest =>
    have hM : messageAfterStep s M = messageAfterAccess a s M := by simp [messageAfterStep, hs]
    rw [hM]
    rw [step_cons hs] at h
    refine .inr ⟨rest, ?_⟩
    cases a with
    | reset => exact .inl ⟨(Host.Outcome.next.inj h).symm, rfl⟩
    | read width off =>
      obtain ⟨r, hr⟩ := regRead_eq width off { s with script := rest }
      exact .inr (.inl ⟨r, by rw [← hr]; exact (Host.Outcome.next.inj h).symm, rfl⟩)
    | write width off v =>
      rcases regWrite_next h with ⟨rfl, rfl, u, hu, ht⟩ | ⟨hc, ht⟩
      · exact .inr (.inr ⟨v, u, hu, ht, rfl⟩)
      · exact .inr (.inl ⟨_, ht, messageAfterAccess_write hc v s M⟩)

end Sys2Proof.Machine
end

