-- ==== Sys2Proof/Laws/PerInstr.lean ====
section
/-! SUPPORT. What holds of every instruction as syntax, one lemma per constructor. -/

namespace Sys2Proof.Laws.EncodesLegally

/-- The instruction is well-formed and its word is one of R57's legal words. -/
def Statement (i : Instr) : Prop := i.WellFormed ∧ legal (encode i) = true

theorem init : Statement .init := by unfold Statement; decide

theorem absorb (d : Byte) : Statement (.absorb d) := by revert d; unfold Statement; decide

theorem digestSha3 : Statement .digestSha3 := by unfold Statement; decide

theorem digestKeccak : Statement .digestKeccak := by unfold Statement; decide

theorem wipe : Statement .wipe := by unfold Statement; decide

end Sys2Proof.Laws.EncodesLegally
end

