-- ==== Sys2Proof/Tests/Slice0.lean ====
section
/-! SUPPORT. The model's own tests. Expected values come from the spec: `95_test_vectors.md` and the examples of the rules,
named at each group. The `witness_…` theorems show, for each statement that has hypotheses, a concrete state and operands
that meet them, at the boundary values of each clause. -/

namespace Sys2Proof.Tests

open Sys2Proof Sys2Proof.Machine

/-! ### Small states -/

/-- A live engine, otherwise as after reset, with the cursor at `p`. -/
def liveAt (p : BitVec 8) : State := { State.reset with live := true, pos := p }

/-- The same state with a host program. -/
def hosted (as : List Access) (s : State) : State := { s with script := as }

/-- The outcome is a next state of which `p` holds. -/
def nextHas (p : State → Bool) : Host.Outcome State Fault Refusal → Bool
  | .next t    => p t
  | .fault _   => false
  | .refused _ => false

/-- The bank with one lane set, all others zero. -/
def oneLane (i : Fin 25) (v : Lane) : Lanes := zeroLanes.set i.val v

/-! ### Well-formedness: an ill-formed term for each check, refused by it -/

theorem test_wf_opcode_zero : Fields.opcodeKnown ⟨0x0, 0, 0, 0⟩ = false ∧ Fields.wellFormed ⟨0x0, 0, 0, 0⟩ = false := by decide
theorem test_wf_opcode_five : Fields.opcodeKnown ⟨0x5, 0, 0, 0⟩ = false ∧ Fields.wellFormed ⟨0x5, 0, 0, 0⟩ = false := by decide
theorem test_wf_reserved : Fields.reservedZero ⟨0x2, 0x40000, 0, 0x61⟩ = false ∧ Fields.wellFormed ⟨0x2, 0x40000, 0, 0x61⟩ = false := by decide
theorem test_wf_mode : Fields.modeAllowed ⟨0x2, 0, 1, 0x61⟩ = false ∧ Fields.wellFormed ⟨0x2, 0, 1, 0x61⟩ = false := by decide
theorem test_wf_data : Fields.dataAllowed ⟨0x3, 0, 0, 0x06⟩ = false ∧ Fields.wellFormed ⟨0x3, 0, 0, 0x06⟩ = false := by decide
theorem test_wf_accepts : Fields.wellFormed ⟨0x3, 0, 1, 0⟩ = true ∧ Fields.wellFormed ⟨0x2, 0, 0, 0xFF⟩ = true := by decide

/-! ### Decoding: each constructor from its word, bit by bit (R52 to R55), and illegal words (section 2.7) -/

theorem test_decode_init : decode 0b0001_0000000000000000000_0_00000000#32 = .ok .init := by decide
theorem test_decode_absorb : decode 0b0010_0000000000000000000_0_01100001#32 = .ok (.absorb 0x61) := by decide
theorem test_decode_absorb_ff : decode 0b0010_0000000000000000000_0_11111111#32 = .ok (.absorb 0xFF) := by decide
theorem test_decode_digest_sha3 : decode 0b0011_0000000000000000000_0_00000000#32 = .ok .digestSha3 := by decide
theorem test_decode_digest_keccak : decode 0b0011_0000000000000000000_1_00000000#32 = .ok .digestKeccak := by decide
theorem test_decode_wipe : decode 0b0100_0000000000000000000_0_00000000#32 = .ok .wipe := by decide
theorem test_decode_illegal :
    [0x00000000#32, 0x10000001#32, 0x10000100#32, 0x20000161#32, 0x20000261#32, 0x28000061#32, 0x30000001#32, 0x30000006#32,
     0x30000200#32, 0x40000001#32, 0x50000000#32, 0xF0000000#32, 0xFFFFFFFF#32].all
      (fun w => !legal w && (decode w).toOption.isNone) = true := by decide
theorem test_opcode_rows_do_not_overlap :
    opcodeRows.Pairwise fun a b => (a.pattern ^^^ b.pattern) &&& (a.mask &&& b.mask) ≠ 0#32 := by decide
theorem test_table_words : decodeTableWord 32 0x20000061 = some (.absorb 0x61) ∧ decodeTableWord 32 0x30000100 = some .digestKeccak ∧
    decodeTableWord 32 0x50000000 = none := by decide
theorem test_fetch_word : step (State.reset.withFetchWord 32 0x10000000) =
    .next { liveAt 0 with responses := [.done] } := rfl

/-! ### Constants and tables (R6, R9, R99, R103, R104; section 2.2) -/

theorem test_state_is_rate_and_capacity : Config.rate + Config.capacity = Config.stateBytes ∧ Config.lanes * 8 = Config.stateBytes := by
  decide
theorem test_rol64 : rol64 0x8000000000000001#64 1 = 0x3#64 ∧ rol64 1#64 63 = 0x8000000000000000#64 ∧
    rol64 0x0123456789ABCDEF#64 0 = 0x0123456789ABCDEF#64 ∧ rol64 0x0123456789ABCDEF#64 4 = 0x123456789ABCDEF0#64 := by decide

/-! ### The five steps and a round (sections 2.2 and 2.3) -/

theorem test_theta : theta (oneLane 0 0x8000000000000000#64) =
    (Vector.ofFn fun i : Fin 25 => if i.val % 5 = 1 then 0x8000000000000000#64 else if i.val % 5 = 4 then 1#64
      else if i.val = 0 then 0x8000000000000000#64 else 0#64 : Lanes) := by decide +kernel
theorem test_rho : rho (Vector.replicate 25 1#64) = #v[
    0x0000000000000001#64, 0x0000000000000002#64, 0x4000000000000000#64, 0x0000000010000000#64, 0x0000000008000000#64,
    0x0000001000000000#64, 0x0000100000000000#64, 0x0000000000000040#64, 0x0080000000000000#64, 0x0000000000100000#64,
    0x0000000000000008#64, 0x0000000000000400#64, 0x0000080000000000#64, 0x0000000002000000#64, 0x0000008000000000#64,
    0x0000020000000000#64, 0x0000200000000000#64, 0x0000000000008000#64, 0x0000000000200000#64, 0x0000000000000100#64,
    0x0000000000040000#64, 0x0000000000000004#64, 0x2000000000000000#64, 0x0100000000000000#64, 0x0000000000004000#64] := by
  decide +kernel
theorem test_pi : (piMap (Vector.ofFn fun i : Fin 25 => BitVec.ofNat 64 i.val)).toList.map BitVec.toNat =
    [0, 6, 12, 18, 24, 3, 9, 10, 16, 22, 1, 7, 13, 19, 20, 4, 5, 11, 17, 23, 2, 8, 14, 15, 21] := by decide +kernel
theorem test_chi : (chi (Vector.ofFn fun i : Fin 25 => BitVec.ofNat 64 i.val)).toList.map BitVec.toNat =
    [0x2, 0x0, 0x6, 0x3, 0x5, 0x4, 0xE, 0x6, 0xC, 0xB, 0xE, 0xA, 0xE, 0xD, 0xF, 0xE, 0x12, 0x10, 0x1E, 0x3,
     0x16, 0x14, 0x1E, 0x13, 0x19] := by decide +kernel
theorem test_iota : iota zeroLanes 23 = oneLane 0 0x8000000080008008#64 := by decide +kernel
theorem test_round_zero : keccakRound ((oneLane 0 0x6#64).set 16 0x8000000000000000#64) 0 = #v[
    0x0000040000000006#64, 0x0000600000000000#64, 0x0000040000030000#64, 0x0000000000000007#64, 0x0000600000030000#64,
    0x0000000000000008#64, 0x0000D00000C00000#64, 0x1000000000000008#64, 0x0000D00000000000#64, 0x1000000000C00000#64,
    0x000000000000000C#64, 0x0000000000000C20#64, 0x0000000000040000#64, 0x0000000000000C0C#64, 0x0000000000040020#64,
    0x0000000060001800#64, 0x0000001000004000#64, 0x0000000000001800#64, 0x0000000060004000#64, 0x0000001000000000#64,
    0x2000060000000000#64, 0x0000000000000000#64, 0x0000060000000018#64, 0x2000020000000000#64, 0x0000000000000018#64] := by
  decide +kernel

/-! ### The commands (R63, R66, R75, R91; programs P1, P3, P4) -/

theorem test_init : nextHas (fun t => statusWord t == 0x00000001#32 && t.A == zeroLanes && t.pos == 0) (exec .init State.reset) = true := by
  decide +kernel
theorem test_absorb_example : nextHas (fun t => t.A == oneLane 0 0x61#64 && t.pos == 1) (exec (.absorb 0x61) (liveAt 0)) = true := by
  decide +kernel
theorem test_absorb_last_but_one : nextHas (fun t => byteAt t.A ⟨134, by decide⟩ == 0x61 && t.pos == 135)
    (exec (.absorb 0x61) (liveAt 134)) = true := by decide +kernel
theorem test_absorb_full_block : nextHas (fun t => t.pos == 0) (exec (.absorb 0x61) (liveAt 135)) = true := by decide +kernel
/-- Section 2.3: the padded copy of the empty message. -/
theorem test_padding_of_the_empty_message :
    (padScratch .standard 0 (liveAt 0)).TA = (oneLane 0 0x6#64).set 16 0x8000000000000000#64 := by decide +kernel
/-- P4, steps 14, 15, 20 and 21: the digest of the empty message, read back by the host. -/
theorem test_digest_of_the_empty_message :
    nextHas (fun t => readReg t (.dout 0) == 0xF8C6FFA7#32 && readReg t (.dout 7) == 0x4A43F880#32)
      (exec .digestSha3 (liveAt 0)) = true := by decide +kernel
theorem test_digest_flags : nextHas (fun t => statusWord t == 0x00000003#32 && t.TA == zeroLanes && t.pos == 3)
    (exec .digestKeccak (liveAt 3)) = true := by decide +kernel
theorem test_wipe : nextHas (fun t => statusWord t == 0#32 && t.A == zeroLanes && t.pos == 0)
    (exec .wipe { liveAt 3 with A := oneLane 0 0x636261#64 }) = true := by decide +kernel

/-! ### The ghost message (R28: "ABSORB commands executed (not refused) since the most recent INIT, in order") -/

theorem test_message_since_init : messageAfterAll [.absorb 0x61, .init, .absorb 0x62, .digestSha3, .absorb 0x63] (liveAt 0) (some []) =
    some [0x62, 0x63] := by decide +kernel
theorem test_message_without_refused_absorbs :
    messageAfterAll [.absorb 0x61, .init] State.reset none = some [] ∧ messageAfterAll [.init, .wipe, .absorb 0x61] State.reset none = none := by
  decide +kernel

/-! ### Faults and the bus (section 2.8) -/

theorem test_uaw : nextHas (fun t => statusWord t == 0x00000008#32) (execWord 0x20000061#32 State.reset) = true := by decide +kernel
theorem test_ill_before_uaw : nextHas (fun t => statusWord t == 0x00000004#32) (execWord 0x20000161#32 State.reset) = true := by
  decide +kernel
theorem test_ill_stays_over_init : nextHas (fun t => statusWord t == 0x00000005#32) (exec .init { State.reset with ill := true }) = true := by
  decide +kernel
theorem test_bus_errors :
    [.write .byte 0x00 0x61, .read .half 0x04, .write .word 0x02 0x00, .read .word 0x12, .read .dword 0x10, .write .word 0x04 0x00,
     .write .word 0x10 0x00, .write .word 0x08 0x40, .read .word 0x30, .read .word 0x3C, .write .word 0x30 0x00].all
      (fun a => nextHas (fun t => t == { State.reset with responses := [.busError] }) (performAccess a State.reset)) = true := by
  decide +kernel
theorem test_reads_after_reset :
    [.cmd, .status, .blockSize, .digestSize, .dout 0, .dout 7].map (readReg State.reset) =
      [0#32, 0#32, 0x88#32, 0x20#32, 0#32, 0#32] := by decide +kernel

/-! ### The command notation (R60, R61; section 2.7) -/

theorem test_pseudo_commands :
    AsmLine.expand (.absorbs ['a', 'b', 'c']) = some [0x20000061, 0x20000062, 0x20000063] ∧
    AsmLine.expand (.absorbx ['0', '0', 'f', 'f']) = some [0x20000000, 0x200000FF] ∧
    AsmLine.expand (.absorbn 0x61 3) = some [0x20000061, 0x20000061, 0x20000061] ∧
    AsmLine.expand (.absorbs []) = some [] ∧ AsmLine.expand .digest = some [0x30000000] ∧
    AsmLine.expand (.constructText ['a', 'b']) = some [0x10000000, 0x20000061, 0x20000062] ∧
    AsmLine.expand .dispose = some [0x40000000] := by decide
theorem test_script_line : assemble [.asm (.command .init), .read .status, .write .status 0, .reset] =
    some [.write .word 0x00 0x10000000, .read .word 0x04, .write .word 0x04 0x00, .reset] := by decide

/-! ### Witnesses: the hypotheses of the statements can be met -/

theorem witness_HardwareResetGivesTheResetState :
    step (hosted [.reset] { liveAt 200 with ill := true, uaw := true, rnd := 5 }) = .next State.reset := rfl

theorem witness_AbsorbXorsOneByteAtTheCursor :
    ((liveAt 0).live = true ∧ (liveAt 0).pos.toNat < 136 ∧ (liveAt 0).pos ≠ 135#8) ∧
    ((liveAt 135).live = true ∧ (liveAt 135).pos.toNat < 136 ∧ (liveAt 135).pos = 135#8) ∧ State.reset.live = false := by decide

theorem witness_AbsorbTouchesOnlyStateAndCursor :
    (∃ t, exec (.absorb 1) (liveAt 135) = .next t) ∧ (∃ t, exec (.absorb 1) State.reset = .next t) ∧
    (∃ t₁ t₂, exec (.absorb 1) (liveAt 0) = .next t₁ ∧ exec (.absorb 1) { liveAt 0 with dvalid := true } = .next t₂) ∧
    (∃ t, exec (digestInstr .standard) (liveAt 0) = .next t) ∧ ∃ t, exec (digestInstr .legacyKeccak) State.reset = .next t :=
  ⟨⟨_, exec_absorb_live rfl (by decide) _⟩, ⟨_, exec_absorb_dead rfl _⟩,
    ⟨_, _, exec_absorb_live rfl (by decide) _, exec_absorb_live rfl (by decide) _⟩, ⟨_, exec_digest_live rfl (by decide) _⟩,
    ⟨_, exec_digest_dead rfl _⟩⟩

theorem witness_StreamingEquivalence :
    (liveAt 135).live = true ∧ (liveAt 135).pos.toNat < 136 ∧
    ∀ i ∈ [Instr.absorb 1, .digestSha3, .absorb 2, .digestKeccak], (∃ d, i = .absorb d) ∨ ∃ m, i = digestInstr m := by
  refine ⟨rfl, by decide, fun i hi => ?_⟩
  simp only [List.mem_cons, List.not_mem_nil, or_false] at hi
  rcases hi with rfl | rfl | rfl | rfl
  exacts [.inl ⟨1, rfl⟩, .inr ⟨.standard, rfl⟩, .inl ⟨2, rfl⟩, .inr ⟨.legacyKeccak, rfl⟩]

theorem witness_BlockwiseAbsorbAgrees : (liveAt 135).live = true ∧ (liveAt 135).pos.toNat < 136 := by decide

theorem witness_AbsorbedLengthGivesCursorAndPermutations : (liveAt 135).live = true ∧ (liveAt 135).pos.toNat < 136 := by decide

theorem witness_AbsorbedStateHasTheClosedForm :
    [List.replicate 100 (0x61 : Byte), [], List.replicate 36 0x62].flatten.length % 136 = 0 := by decide +kernel

theorem witness_DigestDeliversThePermutedPaddedCopy :
    ((liveAt 0).live = true ∧ (liveAt 0).pos.toNat < 136) ∧ ((liveAt 135).live = true ∧ (liveAt 135).pos.toNat < 136) ∧
    State.reset.live = false := by decide

theorem witness_PaddingIsTheBlockXoredIn :
    (134 : ByteIndex).val < (135 : RateIndex).val ∧ 136 ≤ (136 : ByteIndex).val ∧ (135 : RateIndex).val = 135 := by decide

theorem witness_DigestIsNonDestructiveAndRepeatable :
    (∃ t, exec (digestInstr .standard) (liveAt 135) = .next t) ∧ (∃ t, exec (digestInstr .standard) State.reset = .next t) ∧
    (liveAt 135).live = true ∧ (liveAt 135).pos.toNat < 136 :=
  ⟨⟨_, exec_digest_live rfl (by decide) _⟩, ⟨_, exec_digest_dead rfl _⟩, rfl, by decide⟩

theorem witness_DigestIsOfTheWholeMessage :
    ∀ i ∈ [Instr.digestSha3, .absorb 2], (∃ d, i = .absorb d) ∨ ∃ m, i = digestInstr m := by
  intro i hi
  simp only [List.mem_cons, List.not_mem_nil, or_false] at hi
  rcases hi with rfl | rfl
  exacts [.inr ⟨.standard, rfl⟩, .inl ⟨2, rfl⟩]

theorem witness_RhoAndPiFollowTheirTables : 0 < 1 ∧ 23 < 24 := by decide

theorem witness_ChiAndIotaFollowTheirFormulas : ((1 : Fin 5), (0 : Fin 5)) ≠ (0, 0) ∧ ((0 : Fin 5), (4 : Fin 5)) ≠ (0, 0) := by decide

theorem witness_TablesComeFromTheirRecurrences :
    ((1, 0), 1) ∈ rhoWalk 24 0 1 0 ∧ ((1 : Fin 5), (0 : Fin 5)) ≠ (0, 0) := by decide +kernel

theorem witness_SequencerComputesTheWholePermutation : 0 < 24 ∧ 23 < 24 := by decide

theorem witness_LanesAndBytesAreTheSameBits : 0 < 64 ∧ 63 < 64 := by decide

theorem witness_DecodeInvertsEncode :
    Instr.WellFormed (.absorb 0xFF) ∧ decode 0x200000FF#32 = .ok (.absorb 0xFF) := by decide

theorem witness_ExactlyTheLegalWordsDecode : legal 0x200000FF#32 = true ∧ legal 0x20000100#32 = false := by decide

theorem witness_EachLegalWordHasOneTableRow :
    decode 0x30000100#32 = .ok .digestKeccak ∧ decode 0x30000200#32 = .error .reservedBits := by decide

theorem witness_ExecFollowsItsCheckOrder :
    legal 0x00000000#32 = false ∧ (legal 0x10000000#32 = true ∧ (0x10000000#32).extractLsb' 28 4 = 0x1#4) ∧
    (legal 0x40000000#32 = true ∧ (0x40000000#32).extractLsb' 28 4 = 0x4#4) ∧
    (legal 0x200000FF#32 = true ∧ (0x200000FF#32).extractLsb' 28 4 = 0x2#4) ∧
    (legal 0x30000100#32 = true ∧ (0x30000100#32).extractLsb' 28 4 = 0x3#4) ∧
    State.reset.live = false ∧ (liveAt 135).live = true ∧ (liveAt 135).pos.toNat < 136 := by decide

theorem witness_IllegalWordSetsOnlyIll :
    (hosted [commandWrite 0x00000000] (liveAt 5)).script = commandWrite 0x00000000 :: [] ∧ legal 0x00000000 = false ∧
    (∃ t, exec .init State.reset = .next t) ∧
    step (hosted [.reset] { State.reset with ill := true }) = .next State.reset :=
  ⟨rfl, by decide, ⟨_, rfl⟩, rfl⟩

theorem witness_UseWithoutAContextSetsOnlyUaw :
    ((hosted [commandWrite (encode .digestSha3)] State.reset).script = commandWrite (encode .digestSha3) :: [] ∧
      State.reset.live = false ∧ .digestSha3 = digestInstr .standard) ∧
    (exec .init { State.reset with uaw := true } = .next { liveAt 0 with uaw := true }) ∧
    step (hosted [.reset] { State.reset with uaw := true }) = .next State.reset :=
  ⟨⟨rfl, rfl, rfl⟩, rfl, rfl⟩

theorem witness_RejectedAccessesChangeNothing :
    (hosted [.read .byte 0x00] (liveAt 0)).script = .read .byte 0x00 :: [] ∧ Width.byte ≠ .word ∧ 0x2E % 4 ≠ 0 ∧ 0x30 ≤ 0x30 ∧
    (hosted [.write .word 0x2C 0] (liveAt 0)).script = .write .word 0x2C 0 :: [] ∧ 0x2C ≠ 0x00 ∧
    (hosted [.read .word 0x00] (liveAt 0)).script = .read .word 0x00 :: [] ∧
    (hosted [commandWrite 0x20000100] (liveAt 0)).script = commandWrite 0x20000100 :: [] ∧ legal 0x20000100 = false ∧
    (hosted [commandWrite (encode (.absorb 1))] State.reset).script = commandWrite (encode (.absorb 1)) :: [] ∧
    State.reset.live = false := by decide

theorem witness_StickyFlagsAreSetAndClearedOnlyAsStated :
    nextHas (fun t => t.ill) (step (hosted [commandWrite 0] State.reset)) = true ∧
    nextHas (fun t => t.uaw) (step (hosted [commandWrite (encode .digestKeccak)] State.reset)) = true ∧
    nextHas (fun t => !t.ill && !t.uaw) (step (hosted [.reset] { State.reset with ill := true, uaw := true })) = true := by
  decide +kernel

theorem witness_UnreachableCursorStopsHashCommands :
    ((liveAt 136).live = true ∧ 136 ≤ (liveAt 136).pos.toNat) ∧ ((liveAt 255).live = true ∧ 136 ≤ (liveAt 255).pos.toNat) := by
  decide

theorem witness_StepRunsTheDecodedCommand :
    (hosted [commandWrite 0x20000061, .reset] (liveAt 0)).script = commandWrite 0x20000061 :: [.reset] ∧
    decode 0x20000061 = .ok (.absorb 0x61) ∧ ∃ t, exec (.absorb 0x61) (hosted [.reset] (liveAt 0)) = .next t :=
  ⟨rfl, by decide, ⟨_, exec_absorb_live rfl (by decide) _⟩⟩

theorem witness_AccessesFollowTheRegisterMap :
    (hosted [.read .word 0x2C] (liveAt 0)).script = .read .word 0x2C :: [] ∧ 0x2C = 0x10 + 4 * (7 : Fin 8).val ∧
    (hosted [.read .word 0x30] (liveAt 0)).script = .read .word 0x30 :: [] ∧
    (hosted [.write .word 0x00 0x10000000] (liveAt 0)).script = .write .word 0x00 0x10000000 :: [] ∧
    (hosted [.write .word 0x04 0] (liveAt 0)).script = .write .word 0x04 0 :: [] := by decide

theorem witness_StatusShowsTheFlags : 4 ≤ 4 ∧ 4 ≤ 31 := by decide

theorem witness_OnlyTheseEventsChangeLiveAndDvalid :
    nextHas (fun t => t.live) (step (hosted [commandWrite 0x10000000] State.reset)) = true ∧
    nextHas (fun t => !t.live) (step (hosted [commandWrite 0x40000000] (liveAt 0))) = true ∧
    nextHas (fun t => t.dvalid) (step (hosted [commandWrite 0x30000100] (liveAt 0))) = true ∧
    nextHas (fun t => !t.dvalid) (step (hosted [commandWrite 0x10000000] { liveAt 0 with dvalid := true })) = true := by
  decide +kernel

theorem witness_OnlyTheirWritersChangeStateAndDigest :
    nextHas (fun t => t.A != zeroLanes && t.pos != 0) (step (hosted [commandWrite 0x20000061] (liveAt 0))) = true ∧
    nextHas (fun t => t.dout == zeroDigest)
      (step (hosted [commandWrite 0x40000000] { liveAt 0 with dout := Vector.replicate 32 1 })) = true := by decide +kernel

theorem witness_DigestWordsAreLittleEndian :
    (hosted [.read .word (0x10 + 4 * (7 : Fin 8).val)] (liveAt 0)).script = .read .word (0x10 + 4 * (7 : Fin 8).val) :: [] := rfl

theorem witness_IdleEngineHoldsItsState : (liveAt 7).script = [] := rfl

/-- An engine just after INIT meets the invariants, with the empty message, whatever the host's program. -/
theorem inv_liveAt_zero (as : List Access) : (hosted as (liveAt 0)).Inv where
  cursor := (by decide : (0 : BitVec 8).toNat < 136)
  scratch := rfl
  round := rfl
  dead h := by cases h
  context _ := ⟨[], ⟨absorbedLanes_nil.symm, rfl⟩, rfl⟩
  output h := by cases h

/-- So does one that has then delivered the digest of the empty message. -/
theorem inv_digested (as : List Access) :
    (hosted as { liveAt 0 with dvalid := true, dout := digestOfMessage [] .standard }).Inv where
  cursor := (by decide : (0 : BitVec 8).toNat < 136)
  scratch := rfl
  round := rfl
  dead h := by cases h
  context _ := ⟨[], ⟨absorbedLanes_nil.symm, rfl⟩, ⟨[], .standard, List.prefix_rfl, rfl⟩⟩
  output _ := rfl

/-- So does a dead one with a sticky flag set. -/
theorem inv_dead (as : List Access) : (hosted as { State.reset with uaw := true }).Inv where
  cursor := (by decide : (0 : BitVec 8).toNat < 136)
  scratch := rfl
  round := rfl
  dead _ := ⟨rfl, rfl, rfl, rfl⟩
  context h := by cases h
  output h := by cases h

theorem invFor_liveAt_zero (as : List Access) : (hosted as (liveAt 0)).InvFor (some []) where
  cursor := (by decide : (0 : BitVec 8).toNat < 136)
  scratch := rfl
  round := rfl
  dead h := by cases h
  context _ := ⟨[], rfl, absorbedLanes_nil.symm, rfl⟩
  output h := by cases h

/-- The step that writes ABSORB 0x61 to a live engine with the cursor at 0. -/
theorem step_absorb_liveAt_zero : ∃ t, step (hosted [commandWrite (encode (.absorb 0x61))] (liveAt 0)) = .next t :=
  ⟨_, by
    rw [step_command rfl, execWord_legal (by decide : decode (encode (.absorb 0x61)) = .ok (.absorb 0x61)),
      exec_absorb_live rfl (by decide)]
    rfl⟩

theorem witness_EveryStepKeepsTheInvariant :
    ((hosted [commandWrite (encode (.absorb 0x61))] (liveAt 0)).Inv ∧
      ∃ t, step (hosted [commandWrite (encode (.absorb 0x61))] (liveAt 0)) = .next t) ∧
    ((hosted [commandWrite (encode .wipe)] { liveAt 0 with dvalid := true, dout := digestOfMessage [] .standard }).Inv ∧
      ∃ t, step (hosted [commandWrite (encode .wipe)]
        { liveAt 0 with dvalid := true, dout := digestOfMessage [] .standard }) = .next t) ∧
    ((hosted [.reset] { State.reset with uaw := true }).Inv ∧
      ∃ t, step (hosted [.reset] { State.reset with uaw := true }) = .next t) :=
  ⟨⟨inv_liveAt_zero _, step_absorb_liveAt_zero⟩, ⟨inv_digested _, ⟨_, rfl⟩⟩, ⟨inv_dead _, ⟨_, rfl⟩⟩⟩

theorem witness_InvariantStatesNeverStop :
    (hosted [commandWrite (encode .digestSha3)] (liveAt 0)).Inv ∧ (hosted [.read .byte 3] { State.reset with uaw := true }).Inv :=
  ⟨inv_liveAt_zero _, inv_dead _⟩

theorem witness_CommandsInOrderAreNeverRefused :
    usedInOrder false [.init, .absorb 1, .digestSha3, .wipe, .init, .digestKeccak] = true ∧
    (liveAt 135).pos.toNat < 136 ∧ usedInOrder (liveAt 135).live [.absorb 1, .wipe] = true := by decide

/-- Two engines that look alike from outside and hold different messages, and a program without DIGEST. -/
theorem witness_HiddenStateShowsOnlyThroughDigest :
    let as := [commandWrite 0x20000061, .read .word 0x10, .reset]
    let s₁ := hosted as (liveAt 0)
    let s₂ := hosted as { liveAt 135 with A := oneLane 3 7 }
    s₁.pos.toNat < 136 ∧ s₂.pos.toNat < 136 ∧ s₁.live = s₂.live ∧ s₁.dvalid = s₂.dvalid ∧ s₁.ill = s₂.ill ∧ s₁.uaw = s₂.uaw ∧
    s₁.dout = s₂.dout ∧ s₁.script = s₂.script ∧ s₁.responses = s₂.responses ∧ s₁.A ≠ s₂.A ∧
    ∀ a ∈ s₁.script, a ≠ commandWrite 0x30000000#32 ∧ a ≠ commandWrite 0x30000100#32 := by decide +kernel

theorem witness_HashSequenceReturnsTheDigestAndEndsClean :
    let as := commandWrite (encode .init) :: (absorbWords [0x61, 0x62, 0x63]).map commandWrite ++
      (commandWrite (encode (digestInstr .standard)) :: (List.finRange 8).map (fun j => .read .word (Reg.offset (.dout j)))) ++
      [commandWrite (encode .wipe)]
    (hosted as State.reset).script = as ∧ State.reset.ill = false ∧ State.reset.uaw = false := ⟨rfl, rfl, rfl⟩

theorem witness_MessageIsWhatWasAbsorbedSinceInit :
    ((liveAt 0).live = true ∧ State.reset.live = false) ∧ (∃ u, execAll [.absorb 1, .wipe] (liveAt 0) = .next u) ∧
    (∀ i ∈ [Instr.absorb 2, .digestSha3, .absorb 3], i ≠ .init ∧ i ≠ .wipe) ∧
    ((hosted [.read .word 0x04] (liveAt 0)).script = .read .word 0x04 :: [] ∧ ∀ w, Access.read .word 0x04 ≠ commandWrite w) ∧
    ((hosted [.write .word 0x04 0] (liveAt 0)).script = .write .word 0x04 0 :: [] ∧
      ∀ w, Access.write .word 0x04 0 ≠ commandWrite w) ∧
    (liveAt 135).Absorbing (some (List.replicate 135 0x61)) ∧ (liveAt 135).pos.toNat < 136 := by
  refine ⟨by decide, ⟨clearContext false (absorbAt 1 0 (liveAt 0)), ?_⟩, by decide, ⟨rfl, ?_⟩, ⟨rfl, ?_⟩, ⟨rfl, _, rfl⟩, by decide⟩
  · rw [execAll, exec_absorb_live rfl (by decide)]; rfl
  · intro w h; cases h
  · intro w h; simp [commandWrite, Reg.offset] at h

theorem witness_MessageHasAMeaningExactlyWhileLive :
    ((liveAt 0).live = (some [] : Message).isSome ∧
      ∃ t, step (hosted [commandWrite (encode (.absorb 0x61))] (liveAt 0)) = .next t) ∧
    (State.reset.live = (none : Message).isSome ∧
      ∃ t, step (hosted [commandWrite (encode .init)] State.reset) = .next t) :=
  ⟨⟨rfl, step_absorb_liveAt_zero⟩, ⟨rfl, ⟨_, rfl⟩⟩⟩

theorem witness_EveryStepKeepsTheInvariantOfItsMessage :
    (hosted [commandWrite (encode (.absorb 0x61))] (liveAt 0)).InvFor (some []) ∧
    ∃ t, step (hosted [commandWrite (encode (.absorb 0x61))] (liveAt 0)) = .next t :=
  ⟨invFor_liveAt_zero _, step_absorb_liveAt_zero⟩

theorem witness_DigestReturnsTheDigestOfTheMessage : (liveAt 0).live = true ∧ (liveAt 0).Represents [] :=
  ⟨rfl, absorbedLanes_nil.symm, rfl⟩

end Sys2Proof.Tests
end

/-! ### The commands on a live engine, and every command completes -/

namespace Sys2Proof.Machine

/-- ABSORB writes `A`, `pos` and `rnd` only (R74). -/
theorem absorbAt_frame (d : Byte) (r : RateIndex) (s : State) :
    absorbAt d r s =
      { s with A := (absorbAt d r s).A, pos := (absorbAt d r s).pos, rnd := (absorbAt d r s).rnd } := by
  simp only [absorbAt]
  split_ifs <;> rfl

@[simp] theorem absorbAt_live (d : Byte) (r : RateIndex) (s : State) : (absorbAt d r s).live = s.live := by
  rw [absorbAt_frame]

@[simp] theorem absorbAt_TA (d : Byte) (r : RateIndex) (s : State) : (absorbAt d r s).TA = s.TA := by
  rw [absorbAt_frame]

@[simp] theorem absorbAt_dout (d : Byte) (r : RateIndex) (s : State) : (absorbAt d r s).dout = s.dout := by
  rw [absorbAt_frame]

@[simp] theorem absorbAt_dvalid (d : Byte) (r : RateIndex) (s : State) : (absorbAt d r s).dvalid = s.dvalid := by
  rw [absorbAt_frame]

@[simp] theorem absorbAt_ill (d : Byte) (r : RateIndex) (s : State) : (absorbAt d r s).ill = s.ill := by
  rw [absorbAt_frame]

@[simp] theorem absorbAt_uaw (d : Byte) (r : RateIndex) (s : State) : (absorbAt d r s).uaw = s.uaw := by
  rw [absorbAt_frame]

@[simp] theorem absorbAt_script (d : Byte) (r : RateIndex) (s : State) : (absorbAt d r s).script = s.script := by
  rw [absorbAt_frame]

@[simp] theorem digestAt_A (m : Mode) (r : RateIndex) (s : State) : (digestAt m r s).A = s.A := rfl
@[simp] theorem digestAt_pos (m : Mode) (r : RateIndex) (s : State) : (digestAt m r s).pos = s.pos := rfl
@[simp] theorem digestAt_live (m : Mode) (r : RateIndex) (s : State) : (digestAt m r s).live = s.live := rfl
@[simp] theorem digestAt_dvalid (m : Mode) (r : RateIndex) (s : State) : (digestAt m r s).dvalid = true := rfl
@[simp] theorem digestAt_ill (m : Mode) (r : RateIndex) (s : State) : (digestAt m r s).ill = s.ill := rfl
@[simp] theorem digestAt_uaw (m : Mode) (r : RateIndex) (s : State) : (digestAt m r s).uaw = s.uaw := rfl
@[simp] theorem digestAt_script (m : Mode) (r : RateIndex) (s : State) : (digestAt m r s).script = s.script := rfl

/-- R72: the cursor advances by one, modulo the rate. -/
theorem absorbAt_pos_toNat {s : State} {r : RateIndex} (hr : s.pos.toNat = r.val) (d : Byte) :
    (absorbAt d r s).pos.toNat = (r.val + 1) % 136 := by
  by_cases he : r.val = 135
  · simp [absorbAt_of_eq hr he, he]
  · rw [absorbAt_of_ne hr he]
    have hlt := r.isLt
    simp
    omega

theorem absorbAt_rnd_eq_zero {s : State} {r : RateIndex} (hr : s.pos.toNat = r.val) (hs : s.rnd = 0) (d : Byte) :
    (absorbAt d r s).rnd = 0 := by
  by_cases he : r.val = 135
  · rw [absorbAt_of_eq hr he]
  · rw [absorbAt_of_ne hr he, ← hs]

theorem onLiveContext_completes {s : State} (hp : s.pos.toNat < 136) (e : RateIndex → State) :
    ∃ t, onLiveContext s e = .next t := by
  rcases Bool.eq_false_or_eq_true s.live with hl | hl
  · exact ⟨_, onLiveContext_live hl hp e⟩
  · exact ⟨_, onLiveContext_dead hl e⟩

/-- With the cursor in its range (R29 (a)) no command stops. -/
theorem exec_completes {s : State} (hp : s.pos.toNat < 136) (i : Instr) : ∃ t, exec i s = .next t := by
  cases i with
  | init => exact ⟨_, exec_init s⟩
  | absorb d => exact onLiveContext_completes hp fun r => absorbAt d r s
  | digestSha3 => exact onLiveContext_completes hp fun r => digestAt .standard r s
  | digestKeccak => exact onLiveContext_completes hp fun r => digestAt .legacyKeccak r s
  | wipe => exact ⟨_, exec_wipe s⟩

theorem execWord_completes {s : State} (hp : s.pos.toNat < 136) (w : Word) : ∃ t, execWord w s = .next t := by
  cases hd : decode w with
  | error e => exact ⟨_, execWord_illegal hd s⟩
  | ok i => rw [execWord_legal hd]; exact exec_completes hp i

/-- A write the bus does not pass on to `CMD` is a bus error (R40). -/
theorem regWrite_busError {width : Width} {off : Nat} (h : ¬ (width = .word ∧ off = 0)) (v : Word) (s : State) :
    regWrite width off v s = .next (respond .busError s) := by
  unfold regWrite
  split
  · exact absurd (selectReg_some ‹_›) h
  · rfl

theorem regWrite_completes {s : State} (hp : s.pos.toNat < 136) (width : Width) (off : Nat) (v : Word) :
    ∃ t, regWrite width off v s = .next t := by
  by_cases hc : width = .word ∧ off = 0
  · obtain ⟨rfl, rfl⟩ := hc
    obtain ⟨t, ht⟩ := execWord_completes hp v
    exact ⟨respond .done t, by rw [regWrite_cmd, ht]; rfl⟩
  · exact ⟨_, regWrite_busError hc v s⟩

/-- With the cursor in its range (R29 (a)) no step stops (R116). -/
theorem step_completes {s : State} (hp : s.pos.toNat < 136) : ∃ t, step s = .next t := by
  cases hs : s.script with
  | nil => exact ⟨s, step_nil hs⟩
  | cons a rest =>
    rw [step_cons hs]
    cases a with
    | read width off => exact ⟨_, rfl⟩
    | write width off v => exact regWrite_completes (s := { s with script := rest }) hp width off v
    | reset => exact ⟨_, rfl⟩

/-- One step, then the rest of the run. -/
theorem core_run_succ {s t : State} (h : step s = .next t) (n : Nat) :
    Sys2Proof.core.run (n + 1) s = Sys2Proof.core.run n t := by
  have hstep : Sys2Proof.core.step s = .next t := h
  simp only [Host.Core.run, hstep]

end Sys2Proof.Machine

/-! ### Invariants of the state and the ghost message beside it -/

namespace Sys2Proof.Machine

/-- What makes a property of state and ghost message an invariant of the machine: it looks at neither the sticky flags nor
the host's side, it holds of a cleared context, and the two hash commands keep it on a live engine. -/
structure KeptByCommands (P : State → Message → Prop) : Prop where
  frame : ∀ {s M}, P s M → ∀ (ill uaw : Bool) (script : List Access) (responses : List Response),
    P { s with ill := ill, uaw := uaw, script := script, responses := responses } M
  created : ∀ s, P (clearContext true s) (some [])
  wiped : ∀ s, P (clearContext false s) none
  absorb : ∀ {s M}, P s M → s.live = true → ∀ (hp : s.pos.toNat < 136) (d : Byte),
    P (absorbAt d ⟨s.pos.toNat, hp⟩ s) (M.map (· ++ [d]))
  digest : ∀ {s M}, P s M → s.live = true → ∀ (hp : s.pos.toNat < 136) (m : Mode),
    P (digestAt m ⟨s.pos.toNat, hp⟩ s) M

namespace KeptByCommands

variable {P : State → Message → Prop} {s t : State} {M : Message}

theorem exec_keeps (hP : KeptByCommands P) (hs : P s M) {i : Instr} (h : exec i s = .next t) :
    P t (messageAfter i s M) := by
  rcases exec_next h with ⟨rfl, rfl⟩ | ⟨rfl, rfl⟩ | ⟨d, rfl, hl, rfl⟩ | ⟨m, rfl, hl, rfl⟩ |
    ⟨d, rfl, hl, hp, rfl⟩ | ⟨m, rfl, hl, hp, rfl⟩
  · exact hP.created s
  · exact hP.wiped s
  · rw [messageAfter_absorb_dead hl]
    exact hP.frame hs _ _ _ _
  · rw [messageAfter_digest]
    exact hP.frame hs _ _ _ _
  · rw [messageAfter_absorb_live hl]
    exact hP.absorb hs hl hp d
  · rw [messageAfter_digest]
    exact hP.digest hs hl hp m

theorem execWord_keeps (hP : KeptByCommands P) (hs : P s M) {w : Word} (h : execWord w s = .next t) :
    P t (messageAfterWord w s M) := by
  rcases execWord_next h with ⟨e, he, rfl⟩ | ⟨i, hi, hx⟩
  · rw [messageAfterWord_illegal he]
    exact hP.frame hs _ _ _ _
  · rw [messageAfterWord_legal hi]
    exact hP.exec_keeps hs hx

theorem step_keeps (hP : KeptByCommands P) (hs : P s M) (h : step s = .next t) : P t (messageAfterStep s M) := by
  rcases step_message h M with ⟨rfl, hM⟩ | ⟨rest, ⟨rfl, hM⟩ | ⟨r, rfl, hM⟩ | ⟨w, u, hu, rfl, hM⟩⟩ <;> rw [hM]
  · exact hs
  · exact hP.frame (hP.wiped s) false false rest s.responses
  · exact hP.frame hs _ _ _ _
  · have hrest : P { s with script := rest } M := hP.frame hs _ _ _ _
    exact hP.frame (hP.execWord_keeps hrest hu) _ _ _ _

/-- A kept property that bounds the cursor holds along every run, and the run does not stop. -/
theorem run_keeps (hP : KeptByCommands P) (hcursor : ∀ {s M}, P s M → s.pos.toNat < 136) (n : Nat) (s : State)
    (M : Message) (hs : P s M) :
    ∃ t : State, Sys2Proof.core.run n s = .next t ∧ P t (messageAfterRun n s M) := by
  induction n generalizing s M with
  | zero => exact ⟨s, rfl, hs⟩
  | succ n ih =>
    obtain ⟨u, hu⟩ := step_completes (hcursor hs)
    rw [core_run_succ hu, messageAfterRun_succ hu]
    exact ih u _ (hP.step_keeps hs hu)

end KeptByCommands

/-- R29 (a): the cursor stays in its range. -/
theorem cursor_keptByCommands : KeptByCommands fun s _ => s.pos.toNat < 136 where
  frame h _ _ _ _ := h
  created _ := (by decide : (0 : BitVec 8).toNat < 136)
  wiped _ := (by decide : (0 : BitVec 8).toNat < 136)
  absorb _ _ _ d := by rw [absorbAt_pos_toNat rfl]; omega
  digest h _ _ _ := h

theorem exec_keeps_cursor {i : Instr} {s t : State} (hp : s.pos.toNat < 136) (h : exec i s = .next t) :
    t.pos.toNat < 136 :=
  cursor_keptByCommands.exec_keeps (M := none) hp h

theorem step_keeps_cursor {s t : State} (hp : s.pos.toNat < 136) (h : step s = .next t) : t.pos.toNat < 136 :=
  cursor_keptByCommands.step_keeps (M := none) hp h

/-- R28, log entry 14: the message has a meaning exactly while a context exists. -/
theorem meaning_keptByCommands : KeptByCommands fun s M => s.live = M.isSome where
  frame h _ _ _ _ := h
  created _ := rfl
  wiped _ := rfl
  absorb h _ _ d := by simpa using h
  digest h _ _ _ := h

/-- Settles O50: an invariant kept by each command, lifted to steps. -/
theorem messageHasAMeaningExactlyWhileLive : Obligations.MessageHasAMeaningExactlyWhileLive :=
  fun _ _ _ hM h => meaning_keptByCommands.step_keeps hM h

end Sys2Proof.Machine

/-! ### The closed form of the absorbed state (R73), one byte at a time -/

namespace Sys2Proof.Machine

theorem placedAt_zero (xs : List Byte) (k : ByteIndex) : placedAt 0 xs k = xs.getD k.val 0 := by simp [placedAt]

theorem xorBytes_placedAt_nil (A : Lanes) : xorBytes A (placedAt 0 []) = A := by
  apply lanes_ext_byteAt
  intro k
  simp [placedAt_zero]

/-- One more byte at the end of the placed bytes is one byte XORed in. -/
theorem xorBytes_placedAt_append (A : Lanes) (xs : List Byte) (d : Byte) (k : ByteIndex) (hk : k.val = xs.length) :
    xorBytes A (placedAt 0 (xs ++ [d])) = xorByte (xorBytes A (placedAt 0 xs)) k d := by
  apply lanes_ext_byteAt
  intro j
  simp only [byteAt_xorBytes, byteAt_xorByte, placedAt_zero]
  by_cases hj : j = k
  · simp [hj, hk]
  · have hne : j.val ≠ xs.length := fun h => hj (Fin.ext (h.trans hk.symm))
    rw [if_neg hj]
    congr 1
    rcases Nat.lt_or_gt_of_ne hne with hlt | hgt
    · exact List.getD_append _ _ _ _ hlt
    · rw [List.getD_eq_default _ _ (by simp; omega), List.getD_eq_default _ _ (by omega)]

theorem messageBlock_append {M : List Byte} {j : Nat} (hj : j < M.length / 136) (xs : List Byte) :
    messageBlock (M ++ xs) j = messageBlock M j := by
  simp only [messageBlock]
  rw [List.drop_append_of_le_length (by omega), List.take_append_of_le_length (by simp; omega)]

/-- The state after whole blocks depends on those blocks only. -/
theorem blockState_append (M xs : List Byte) (j : Nat) (hj : j ≤ M.length / 136) :
    blockState (M ++ xs) j = blockState M j := by
  induction j with
  | zero => rfl
  | succ j ih => simp only [blockState, ih (by omega), messageBlock_append (by omega : j < M.length / 136)]

/-- The bytes after the last whole block, as `absorbedLanes` places them. -/
def openBlock (M : List Byte) : List Byte := M.drop (136 * (M.length / 136))

theorem absorbedLanes_eq (M : List Byte) :
    absorbedLanes M = xorBytes (blockState M (M.length / 136)) (placedAt 0 (openBlock M)) := rfl

@[simp] theorem openBlock_length (M : List Byte) : (openBlock M).length = M.length % 136 := by
  simp only [openBlock, List.length_drop]
  omega

theorem absorbedLanes_append_of_ne {M : List Byte} (h : M.length % 136 ≠ 135) (d : Byte) {k : ByteIndex}
    (hk : k.val = M.length % 136) : absorbedLanes (M ++ [d]) = xorByte (absorbedLanes M) k d := by
  have hq : (M ++ [d]).length / 136 = M.length / 136 := by simp; omega
  have hopen : openBlock (M ++ [d]) = openBlock M ++ [d] := by
    rw [openBlock, hq, List.drop_append_of_le_length (by omega), openBlock]
  rw [absorbedLanes_eq, hq, blockState_append _ _ _ le_rfl, hopen,
    xorBytes_placedAt_append _ _ _ k (by rw [openBlock_length, hk]), absorbedLanes_eq]

theorem absorbedLanes_append_of_eq {M : List Byte} (h : M.length % 136 = 135) (d : Byte) {k : ByteIndex}
    (hk : k.val = M.length % 136) : absorbedLanes (M ++ [d]) = keccakF (xorByte (absorbedLanes M) k d) := by
  have hq : (M ++ [d]).length / 136 = M.length / 136 + 1 := by simp; omega
  have hopen : openBlock (M ++ [d]) = [] := List.length_eq_zero_iff.mp (by simp; omega)
  have hblock : messageBlock (M ++ [d]) (M.length / 136) = openBlock M ++ [d] := by
    rw [messageBlock, List.drop_append_of_le_length (by omega)]
    exact List.take_of_length_le (by simp; omega)
  rw [absorbedLanes_eq, hq, hopen, xorBytes_placedAt_nil, blockState, blockState_append _ _ _ le_rfl, hblock,
    xorBytes_placedAt_append _ _ _ k (by rw [openBlock_length, hk]), ← absorbedLanes_eq]

/-- R17, R73: ABSORB takes the state of `M` to the state of `M` with the byte added. -/
theorem absorbAt_represents {s : State} {M : List Byte} (h : s.Represents M) (hp : s.pos.toNat < 136) (d : Byte) :
    (absorbAt d ⟨s.pos.toNat, hp⟩ s).Represents (M ++ [d]) := by
  obtain ⟨hA, hpos⟩ := h
  refine ⟨?_, ?_⟩
  · by_cases he : s.pos.toNat = 135
    · rw [absorbAt_of_eq rfl he, absorbedLanes_append_of_eq (hpos ▸ he) d (k := RateIndex.byte ⟨_, hp⟩) hpos, hA]
    · rw [absorbAt_of_ne rfl he, absorbedLanes_append_of_ne (hpos ▸ he) d (k := RateIndex.byte ⟨_, hp⟩) hpos, hA]
  · rw [absorbAt_pos_toNat rfl, List.length_append, List.length_singleton]
    simp only [hpos]
    omega

/-- R77: the two padding bytes are the padding block. -/
theorem xorByte_xorByte_eq_padBlock (A : Lanes) (r : RateIndex) (p : Byte) (hp : p ^^^ padFinal = p ||| padFinal) :
    xorByte (xorByte A r.byte p) lastRateByte padFinal = xorBytes A (padBlock r.val p) := by
  apply lanes_ext_byteAt
  intro k
  simp only [byteAt_xorByte, byteAt_xorBytes, padBlock, Fin.ext_iff, rateIndex_byte_val, lastRateByte_val]
  by_cases h135 : k.val = 135
  · obtain rfl : k = lastRateByte := Fin.ext h135
    by_cases hr : (135 : Nat) = r.val
    · have hb : r.byte = lastRateByte := Fin.ext hr.symm
      simp [← hr, hb, BitVec.xor_assoc, hp]
    · simp [hr]
  · by_cases hr : k.val = r.val
    · obtain rfl : k = r.byte := Fin.ext hr
      have hne : r.val ≠ 135 := h135
      simp [hne]
    · simp [h135, hr]

theorem xorByte_xorByte_padByte (A : Lanes) (r : RateIndex) (m : Mode) :
    xorByte (xorByte A r.byte (padByte m)) lastRateByte padFinal = xorBytes A (padBlock r.val (padByte m)) :=
  xorByte_xorByte_eq_padBlock A r (padByte m) (by cases m <;> decide)

/-- R88: DIGEST delivers the digest of the message the state represents. -/
theorem digestAt_dout_eq {s : State} {M : List Byte} (h : s.Represents M) (hp : s.pos.toNat < 136) (m : Mode) :
    (digestAt m ⟨s.pos.toNat, hp⟩ s).dout = digestOfMessage M m := by
  obtain ⟨hA, hpos⟩ := h
  rw [digestAt_eq, xorByte_xorByte_padByte, hA, digestOfMessage, ← hpos]

end Sys2Proof.Machine

/-! ### The invariants of R29 and R21 -/

namespace Sys2Proof.Machine

/-- A cleared engine is all zero, so R29 asks no more of it than what message it holds. -/
theorem invFor_clearContext {live : Bool} {M : Message} (h : live = true → M = some []) (s : State) :
    (clearContext live s).InvFor M where
  cursor := (by decide : (0 : BitVec 8).toNat < 136)
  scratch := rfl
  round := rfl
  dead _ := ⟨rfl, rfl, rfl, rfl⟩
  context hl := ⟨[], h hl, absorbedLanes_nil.symm, rfl⟩
  output hd := by cases hd

/-- On a live engine R29 holds of the message the state represents, (d) and (f) having nothing to say. -/
theorem invFor_of_live {s : State} {bs : List Byte} (hl : s.live = true) (hp : s.pos.toNat < 136)
    (hT : s.TA = zeroLanes) (hr : s.rnd = 0) (hbs : s.Represents bs) : s.InvFor (some bs) where
  cursor := hp
  scratch := hT
  round := hr
  dead hd := by rw [hl] at hd; cases hd
  context _ := ⟨bs, rfl, hbs⟩
  output _ := hl

/-- R29 for the ghost message is kept by every command. -/
theorem invFor_keptByCommands : KeptByCommands State.InvFor where
  frame h _ _ _ _ := ⟨h.cursor, h.scratch, h.round, h.dead, h.context, h.output⟩
  created := invFor_clearContext fun _ => rfl
  wiped := invFor_clearContext fun h => by cases h
  absorb {s M} h hl hp d := by
    obtain ⟨bs, rfl, hbs⟩ := h.context hl
    exact invFor_of_live (by simpa using hl) (cursor_keptByCommands.absorb (M := none) hp hl hp d)
      (by simpa using h.scratch) (absorbAt_rnd_eq_zero rfl h.round d) (absorbAt_represents hbs hp d)
  digest {s M} h hl hp m := by
    obtain ⟨bs, rfl, hbs⟩ := h.context hl
    exact invFor_of_live hl hp rfl rfl hbs

/-- Settles O51: R29 for the ghost message is kept by every command, so by every step and every run. -/
theorem everyStepKeepsTheInvariantOfItsMessage : Obligations.EveryStepKeepsTheInvariantOfItsMessage :=
  ⟨fun _ _ _ hs h => invFor_keptByCommands.step_keeps hs h, invFor_keptByCommands.run_keeps State.InvFor.cursor⟩

/-- Settles O52: reset leaves a wiped context. -/
theorem resetMeetsTheInvariantOfItsMessage : Obligations.ResetMeetsTheInvariantOfItsMessage :=
  fun as => invFor_keptByCommands.frame (invFor_keptByCommands.wiped State.reset) false false as []

/-- R29 for the ghost message, and R21: while the message has a meaning, `DOUT` is a digest of a first part of it, or zero. -/
def State.InvWithOutput (s : State) (M : Message) : Prop :=
  s.InvFor M ∧ ∀ bs, M = some bs → s.OutputOf bs

/-- What R21 says of `DOUT` stays true as the message grows. -/
theorem outputOf_append {s : State} {bs : List Byte} (h : s.OutputOf bs) (xs : List Byte) : s.OutputOf (bs ++ xs) := by
  unfold State.OutputOf at h ⊢
  split at h
  case isTrue hv =>
    obtain ⟨P, m, hP, hd⟩ := h
    rw [if_pos hv]
    exact ⟨P, m, hP.trans (List.prefix_append bs xs), hd⟩
  case isFalse hv =>
    rw [if_neg hv]
    exact h

/-- What R21 says looks at `DOUT` and `DVALID` only. -/
theorem outputOf_congr {s t : State} {bs : List Byte} (hd : t.dout = s.dout) (hv : t.dvalid = s.dvalid) :
    t.OutputOf bs ↔ s.OutputOf bs := by
  simp only [State.OutputOf, hd, hv]

theorem outputOf_of_not_dvalid {s : State} (hv : s.dvalid = false) (hd : s.dout = zeroDigest) (bs : List Byte) :
    s.OutputOf bs := by
  simpa [State.OutputOf, hv] using hd

theorem digestAt_outputOf {s : State} {bs : List Byte} (h : s.Represents bs) (hp : s.pos.toNat < 136) (m : Mode) :
    (digestAt m ⟨s.pos.toNat, hp⟩ s).OutputOf bs := by
  have hv : (digestAt m ⟨s.pos.toNat, hp⟩ s).dvalid = true := rfl
  rw [State.OutputOf, if_pos hv]
  exact ⟨bs, m, List.prefix_rfl, digestAt_dout_eq h hp m⟩

theorem invWithOutput_keptByCommands : KeptByCommands State.InvWithOutput where
  frame h _ _ _ _ := ⟨invFor_keptByCommands.frame h.1 _ _ _ _, h.2⟩
  created s := ⟨invFor_keptByCommands.created s, fun bs _ => outputOf_of_not_dvalid rfl rfl bs⟩
  wiped s := ⟨invFor_keptByCommands.wiped s, fun bs _ => outputOf_of_not_dvalid rfl rfl bs⟩
  absorb {s M} h hl hp d := by
    obtain ⟨hinv, hout⟩ := h
    refine ⟨invFor_keptByCommands.absorb hinv hl hp d, fun bs hbs => ?_⟩
    obtain ⟨cs, hcs, rfl⟩ := Option.map_eq_some_iff.mp hbs
    exact (outputOf_congr (by simp) (by simp)).mpr (outputOf_append (hout cs hcs) [d])
  digest {s M} h hl hp m := by
    obtain ⟨hinv, -⟩ := h
    refine ⟨invFor_keptByCommands.digest hinv hl hp m, fun bs hbs => ?_⟩
    obtain ⟨cs, rfl, hrep⟩ := hinv.context hl
    obtain rfl : cs = bs := Option.some.inj hbs
    exact digestAt_outputOf hrep hp m

/-- The invariant in the reading of log entry 14: some message meets R29 as it stands, and R21. -/
theorem inv_iff_exists_message (s : State) : s.Inv ↔ ∃ M, s.InvWithOutput M := by
  constructor
  · intro h
    rcases Bool.eq_false_or_eq_true s.live with hl | hl
    · obtain ⟨bs, hrep, hout⟩ := h.context hl
      refine ⟨some bs, invFor_of_live hl h.cursor h.scratch h.round hrep, fun cs hcs => ?_⟩
      exact Option.some.inj hcs ▸ hout
    · exact ⟨none, ⟨h.cursor, h.scratch, h.round, h.dead, by simp [hl], h.output⟩, by simp⟩
  · rintro ⟨M, h, hout⟩
    refine ⟨h.cursor, h.scratch, h.round, h.dead, fun hl => ?_, h.output⟩
    obtain ⟨bs, hbs, hrep⟩ := h.context hl
    exact ⟨bs, hrep, hout bs hbs⟩

/-- Settles O43: the message that witnesses the invariant, followed along the step, witnesses it again. -/
theorem everyStepKeepsTheInvariant : Obligations.EveryStepKeepsTheInvariant := by
  intro s t hs h
  obtain ⟨M, hM⟩ := (inv_iff_exists_message s).mp hs
  exact (inv_iff_exists_message t).mpr ⟨messageAfterStep s M, invWithOutput_keptByCommands.step_keeps hM h⟩

/-- Settles O44: reset leaves a wiped context, which holds no message. -/
theorem resetMeetsTheInvariant : Obligations.ResetMeetsTheInvariant :=
  (inv_iff_exists_message _).mpr ⟨none, invWithOutput_keptByCommands.wiped State.reset⟩

end Sys2Proof.Machine

/-! ### Lanes, bytes and words bit by bit (R16, R31, R33) -/

namespace Sys2Proof.Machine

/-- Settles O25: byte `k` lies in lane `k div 8` at bit `8 (k mod 8)`, and a write to a lane's slot leaves the others. -/
theorem lanesAndBytesAreTheSameBits : Obligations.LanesAndBytesAreTheSameBits := by
  refine ⟨?_, ?_, ?_, fun _ _ _ => rfl⟩
  · intro A i k
    have hdiv : (8 * i.val + k.val) / 8 = i.val := by omega
    have hmod : (8 * i.val + k.val) % 8 = k.val := by omega
    simp only [byteAt, hdiv, hmod, Fin.getElem_fin]
  · intro A k v i b hb
    simp only [setByte, Fin.getElem_fin, Vector.getElem_set]
    by_cases hl : k.val / 8 = i.val
    · rw [if_pos hl, getLsbD_replaceByte _ _ _ _ hb]
      simp only [hl, true_and]
    · rw [if_neg hl, if_neg fun h => hl h.1.symm]
  · intro A i v k
    simp only [byteAt, Vector.getElem_set, eq_comm (a := i.val)]
    split <;> rfl

theorem getLsbD_statusWord (s : State) (i : Nat) :
    (statusWord s).getLsbD i = (decide (i < 32) &&
      if i < 1 then (BitVec.ofBool s.live).getLsbD i
      else if i - 1 < 1 then (BitVec.ofBool s.dvalid).getLsbD (i - 1)
      else if i - 1 - 1 < 1 then (BitVec.ofBool s.ill).getLsbD (i - 1 - 1)
      else (BitVec.ofBool s.uaw).getLsbD (i - 1 - 1 - 1)) := by
  simp only [statusWord, BitVec.getLsbD_setWidth, BitVec.getLsbD_append]

/-- Settles O38: `STATUS` is the four flags, one bit each, and zeros above. -/
theorem statusShowsTheFlags : Obligations.StatusShowsTheFlags := by
  intro s
  refine ⟨?_, ?_, ?_, ?_, fun i hi => ?_⟩
  · rw [getLsbD_statusWord]; simp
  · rw [getLsbD_statusWord]; simp
  · rw [getLsbD_statusWord]; simp
  · rw [getLsbD_statusWord]; simp
  · rw [statusWord, BitVec.getLsbD_setWidth, BitVec.getLsbD_of_ge _ i (by omega), Bool.and_false]

/-- R33, bit by bit: bit `b` of `DOUTj` is bit `b mod 8` of digest byte `4j + b div 8`. -/
theorem getLsbD_doutWord (d : DigestBytes) (j : Fin 8) (b : Nat) (hb : b < 32) :
    (doutWord d j).getLsbD b = (d[4 * j.val + b / 8]'(by omega)).getLsbD (b % 8) := by
  have hbyte : ∀ n m (hn : 4 * j.val + n < 32), n = b / 8 → m = b % 8 →
      (d[4 * j.val + n]'hn).getLsbD m = (d[4 * j.val + b / 8]'(by omega)).getLsbD (b % 8) := by
    rintro n m hn rfl rfl
    rfl
  simp only [doutWord, BitVec.getLsbD_append]
  split_ifs with h0 h1 h2
  · exact hbyte 0 _ (by omega) (by omega) (by omega)
  · exact hbyte 1 _ (by omega) (by omega) (by omega)
  · exact hbyte 2 _ (by omega) (by omega) (by omega)
  · exact hbyte 3 _ (by omega) (by omega) (by omega)

/-- R33: byte `k` of `DOUTj` is digest byte `4j + k`. -/
theorem doutWord_byte (d : DigestBytes) (j : Fin 8) (k : Fin 4) :
    (doutWord d j).extractLsb' (8 * k.val) 8 = d[4 * j.val + k.val]'(by omega) := by
  apply BitVec.eq_of_getLsbD_eq
  intro b hb
  have hdiv : (8 * k.val + b) / 8 = k.val := by omega
  have hmod : (8 * k.val + b) % 8 = b := by omega
  rw [BitVec.getLsbD_extractLsb', getLsbD_doutWord _ _ _ (by omega)]
  simp [hb, hdiv, hmod]

theorem doutWord_zeroDigest (j : Fin 8) : doutWord zeroDigest j = 0x00000000#32 := by
  apply BitVec.eq_of_getLsbD_eq
  intro b hb
  rw [getLsbD_doutWord _ _ _ hb]
  simp [zeroDigest]

/-- R33: bit `b` of `DOUTj` of a digest of `X` is bit `32 (j mod 2) + b` of lane `j div 2`. -/
theorem doutWord_digestOf (X : Lanes) (j : Fin 8) :
    doutWord (digestOf X) j = (X[j.val / 2]'(by omega)).extractLsb' (32 * (j.val % 2)) 32 := by
  apply BitVec.eq_of_getLsbD_eq
  intro b hb
  have hlane : (4 * j.val + b / 8) / 8 = j.val / 2 := by omega
  have hbit : 8 * ((4 * j.val + b / 8) % 8) + b % 8 = 32 * (j.val % 2) + b := by omega
  rw [getLsbD_doutWord _ _ _ hb, BitVec.getLsbD_extractLsb']
  simp only [digestOf, Vector.getElem_ofFn, getLsbD_byteAt _ _ _ (Nat.mod_lt b (by omega : 8 > 0)), hlane, hbit, hb,
    decide_true, Bool.true_and]

end Sys2Proof.Machine

/-! ### The register map (R32, R33, R37) -/

namespace Sys2Proof.Machine

/-- A read of a register answers its value and changes nothing of the engine (R41). -/
theorem step_read {s : State} {off : Nat} {rest : List Access} (h : s.script = .read .word off :: rest) {r : Reg}
    (hr : off = r.offset) :
    step s = .next { s with script := rest, responses := s.responses ++ [.data (readReg s r)] } := by
  subst hr
  rw [step_cons h]
  simp only [performAccess, regRead, selectReg_word]
  cases r <;> rfl

/-- A read the bus rejects is answered with an error (R121). -/
theorem step_read_busError {s : State} {width : Width} {off : Nat} {rest : List Access}
    (h : s.script = .read width off :: rest) (hr : selectReg width off = none) :
    step s = .next { s with script := rest, responses := s.responses ++ [.busError] } := by
  rw [step_cons h]
  simp only [performAccess, regRead, hr, respond]

/-- Settles O37: each offset is that of one register, and what is no register's is a bus error. -/
theorem accessesFollowTheRegisterMap : Obligations.AccessesFollowTheRegisterMap := by
  refine ⟨fun s off rest h => ⟨?_, ?_, ?_, ?_, ?_, ?_⟩, fun s off v rest h => ⟨?_, ?_⟩⟩
  · exact step_read h (r := .cmd)
  · exact step_read h (r := .status)
  · exact step_read h (r := .blockSize)
  · exact step_read h (r := .digestSize)
  · exact fun j => step_read h (r := .dout j)
  · exact fun hoff => step_read_busError h (selectReg_none (.inr (.inr hoff)))
  · rintro rfl
    exact step_command h
  · intro hoff
    rw [step_cons h]
    exact regWrite_busError (fun hc => hoff hc.2) v _

/-- Settles O41: the word is its four bytes, and two words are one lane of the permuted copy. -/
theorem digestWordsAreLittleEndian : Obligations.DigestWordsAreLittleEndian := by
  refine ⟨doutWord_byte, fun j => selectReg_word (.dout j), doutWord_zeroDigest,
    fun s j rest h => step_read h (r := .dout j) rfl, fun X m => ⟨?_, ?_⟩,
    fun s j v => regWrite_busError (by omega) v s⟩
  · rw [doutWord_digestOf]
    simp
  · have hdiv : (2 * m.val + 1) / 2 = m.val := by omega
    have hmod : (2 * m.val + 1) % 2 = 1 := by omega
    rw [doutWord_digestOf]
    simp [hdiv, hmod]

end Sys2Proof.Machine

/-! ### Command words: a word decodes to a command exactly when it is that command's word -/

namespace Sys2Proof.Machine

theorem decodePlain_ok {f : Fields} {i j : Instr} (h : decodePlain f i = .ok j) : f.mode = 0 ∧ f.data = 0 ∧ j = i := by
  unfold decodePlain at h
  split_ifs at h with hm hd
  exact ⟨not_not.mp hm, not_not.mp hd, (Except.ok.inj h).symm⟩

theorem decodeAbsorb_ok {f : Fields} {j : Instr} (h : decodeAbsorb f = .ok j) : f.mode = 0 ∧ j = .absorb f.data := by
  unfold decodeAbsorb at h
  split_ifs at h with hm
  exact ⟨not_not.mp hm, (Except.ok.inj h).symm⟩

theorem decodeDigest_ok {f : Fields} {j : Instr} (h : decodeDigest f = .ok j) :
    f.data = 0 ∧ ((f.mode = 0 ∧ j = .digestSha3) ∨ (f.mode = 1 ∧ j = .digestKeccak)) := by
  unfold decodeDigest at h
  split_ifs at h with hd hm
  · exact ⟨not_not.mp hd, .inl ⟨hm, (Except.ok.inj h).symm⟩⟩
  · exact ⟨not_not.mp hd, .inr ⟨(BitVec.eq_zero_or_eq_one f.mode).resolve_left hm, (Except.ok.inj h).symm⟩⟩

theorem fields_eq {f : Fields} {op : BitVec 4} {rsv : BitVec 19} {mode : BitVec 1} {data : BitVec 8}
    (hop : f.opcode = op) (hrsv : f.rsv = rsv) (hmode : f.mode = mode) (hdata : f.data = data) :
    f = ⟨op, rsv, mode, data⟩ := by
  rw [← hop, ← hrsv, ← hmode, ← hdata]

/-- A word that decodes has the fields of its instruction (R52 to R55). -/
theorem fields_of_decode {w : Word} {i : Instr} (h : decode w = .ok i) : Fields.ofWord w = i.fields := by
  simp only [decode] at h
  split_ifs at h with hrsv h1 h2 h3 h4
  · obtain ⟨hm, hd, rfl⟩ := decodePlain_ok h
    exact fields_eq h1 (not_not.mp hrsv) hm hd
  · obtain ⟨hm, rfl⟩ := decodeAbsorb_ok h
    exact fields_eq h2 (not_not.mp hrsv) hm rfl
  · obtain ⟨hd, ⟨hm, rfl⟩ | ⟨hm, rfl⟩⟩ := decodeDigest_ok h
    · exact fields_eq h3 (not_not.mp hrsv) hm hd
    · exact fields_eq h3 (not_not.mp hrsv) hm hd
  · obtain ⟨hm, hd, rfl⟩ := decodePlain_ok h
    exact fields_eq h4 (not_not.mp hrsv) hm hd

theorem decode_encode (i : Instr) : decode (encode i) = .ok i := by
  simp only [decode, encode, ofWord_toWord]
  cases i <;> rfl

/-- A word decodes to an instruction exactly when it is that instruction's word. -/
theorem decode_eq_ok_iff {w : Word} {i : Instr} : decode w = .ok i ↔ w = encode i := by
  constructor
  · intro h
    rw [encode, ← fields_of_decode h, toWord_ofWord]
  · rintro rfl
    exact decode_encode i

/-- A word has the fields that a mask over them shows. -/
theorem extract_of_and_eq {w m p : Word} (h : w &&& m = p) {start len : Nat}
    (hm : m.extractLsb' start len = BitVec.allOnes len) : w.extractLsb' start len = p.extractLsb' start len := by
  rw [← h, BitVec.extractLsb'_and, hm, BitVec.and_allOnes]

/-- R57, second line: a word of the formula for ABSORB has ABSORB's fields. -/
theorem fields_of_legal_absorb {w : Word} (h : w &&& 0xFFFFFF00#32 = 0x20000000#32) :
    Fields.ofWord w = Instr.fields (.absorb (Fields.ofWord w).data) :=
  fields_eq (extract_of_and_eq h (by decide)) (extract_of_and_eq h (by decide)) (extract_of_and_eq h (by decide)) rfl

/-- R57, third line: a word of the formula for DIGEST has the fields of one of its two modes. -/
theorem fields_of_legal_digest {w : Word} (h : w &&& 0xFFFFFEFF#32 = 0x30000000#32) :
    ∃ m, Fields.ofWord w = (digestInstr m).fields := by
  have hfields : ∀ {mode}, (Fields.ofWord w).mode = mode → Fields.ofWord w = ⟨0x3, 0, mode, 0⟩ := fun hmode =>
    fields_eq (extract_of_and_eq h (by decide)) (extract_of_and_eq h (by decide)) hmode (extract_of_and_eq h (by decide))
  rcases BitVec.eq_zero_or_eq_one (Fields.ofWord w).mode with hm | hm
  · exact ⟨.standard, hfields hm⟩
  · exact ⟨.legacyKeccak, hfields hm⟩

theorem eq_encode_of_fields {w : Word} {i : Instr} (h : Fields.ofWord w = i.fields) : w = encode i := by
  rw [encode, ← h, toWord_ofWord]

/-- Every word of R57's formula is some command's. -/
theorem exists_encode_of_legal {w : Word} (h : legal w = true) : ∃ i, w = encode i := by
  simp only [legal, Bool.or_eq_true, beq_iff_eq] at h
  obtain ((rfl | h) | h) | rfl := h
  · exact ⟨.init, by decide⟩
  · exact ⟨_, eq_encode_of_fields (fields_of_legal_absorb h)⟩
  · obtain ⟨m, hm⟩ := fields_of_legal_digest h
    exact ⟨digestInstr m, eq_encode_of_fields hm⟩
  · exact ⟨.wipe, by decide⟩

theorem not_legal_of_decode_error {w : Word} {e : Illegal} (h : decode w = .error e) : legal w = false := by
  rw [← Bool.not_eq_true]
  intro hl
  obtain ⟨i, rfl⟩ := exists_encode_of_legal hl
  rw [decode_encode] at h
  cases h

end Sys2Proof.Machine

/-! ### What one step can do, event by event -/

namespace Sys2Proof.Machine

/-- Everything a step from `s` that answers a next state can be, with that state: no access is left, hardware reset, an
access that is no command, an illegal word, and the commands, each executed or refused. -/
inductive StepEvent (s : State) : State → Prop
  | idle : s.script = [] → StepEvent s s
  | reset (rest) : s.script = .reset :: rest → StepEvent s (hardReset { s with script := rest })
  | answered (a rest) (r : Response) : s.script = a :: rest → StepEvent s (respond r { s with script := rest })
  | illegal (w rest) : s.script = commandWrite w :: rest → legal w = false →
      StepEvent s (respond .done { s with script := rest, ill := true })
  | init (rest) : s.script = commandWrite (encode .init) :: rest →
      StepEvent s (respond .done (clearContext true { s with script := rest }))
  | wipe (rest) : s.script = commandWrite (encode .wipe) :: rest →
      StepEvent s (respond .done (clearContext false { s with script := rest }))
  | refused (i rest) : s.script = commandWrite (encode i) :: rest →
      ((∃ d, i = .absorb d) ∨ ∃ m, i = digestInstr m) → s.live = false →
      StepEvent s (respond .done { s with script := rest, uaw := true })
  | absorb (d rest) : s.script = commandWrite (encode (.absorb d)) :: rest → s.live = true → (hp : s.pos.toNat < 136) →
      StepEvent s (respond .done (absorbAt d ⟨s.pos.toNat, hp⟩ { s with script := rest }))
  | digest (m rest) : s.script = commandWrite (encode (digestInstr m)) :: rest → s.live = true → (hp : s.pos.toNat < 136) →
      StepEvent s (respond .done (digestAt m ⟨s.pos.toNat, hp⟩ { s with script := rest }))

theorem stepEvent_of_step {s t : State} (h : step s = .next t) : StepEvent s t := by
  rcases step_next h with ⟨hs, rfl⟩ | ⟨a, rest, hs, ⟨rfl, rfl⟩ | ⟨r, rfl, -⟩ | ⟨w, u, rfl, hu, rfl⟩⟩
  · exact .idle hs
  · exact .reset rest hs
  · exact .answered a rest r hs
  rcases execWord_next hu with ⟨e, he, rfl⟩ | ⟨i, hi, hx⟩
  · exact .illegal w rest hs (not_legal_of_decode_error he)
  obtain rfl := decode_eq_ok_iff.mp hi
  rcases exec_next hx with ⟨rfl, rfl⟩ | ⟨rfl, rfl⟩ | ⟨d, hd, hl, rfl⟩ | ⟨m, hm, hl, rfl⟩ | ⟨d, rfl, hl, hp, rfl⟩ |
    ⟨m, rfl, hl, hp, rfl⟩
  · exact .init rest hs
  · exact .wipe rest hs
  · exact .refused i rest hs (.inl ⟨d, hd⟩) hl
  · exact .refused i rest hs (.inr ⟨m, hm⟩) hl
  · exact .absorb d rest hs hl hp
  · exact .digest m rest hs hl hp

/-- Settles O34: an illegal word sets `ILL`, a refused command sets `UAW`, and reset clears both; no other event of a step
touches them. -/
theorem stickyFlagsAreSetAndClearedOnlyAsStated : Obligations.StickyFlagsAreSetAndClearedOnlyAsStated := by
  intro s t h
  cases stepEvent_of_step h with
  | idle | answered | init | wipe | absorb | digest => simp +contextual
  | reset rest hs => simp [hs]
  | illegal w rest hs hw => exact ⟨fun _ _ => ⟨w, rest, hs, hw⟩, by simp +contextual⟩
  | refused i rest hs hi hl => exact ⟨by simp +contextual, fun _ _ => ⟨hl, i, rest, hs, hi⟩, by simp +contextual⟩

/-- Settles O39: a cleared context sets or clears `LIVE` and clears `DVALID`, a delivered digest sets `DVALID`; no other
event of a step touches them. -/
theorem onlyTheseEventsChangeLiveAndDvalid : Obligations.OnlyTheseEventsChangeLiveAndDvalid := by
  intro s t h
  cases stepEvent_of_step h with
  | idle | answered | illegal | refused | absorb => simp +contextual
  | reset rest hs => simp [hs]
  | init rest hs =>
    exact ⟨fun _ _ => ⟨rest, hs⟩, by simp, by simp, fun _ _ => .inl ⟨rest, hs⟩⟩
  | wipe rest hs =>
    exact ⟨by simp, fun _ _ => .inl ⟨rest, hs⟩, by simp, fun _ _ => .inr (.inl ⟨rest, hs⟩)⟩
  | digest m rest hs hl hp =>
    refine ⟨by simp +contextual, by simp +contextual, fun _ _ => ⟨hl, ?_⟩, by simp⟩
    cases m with
    | standard => exact .inl ⟨rest, hs⟩
    | legacyKeccak => exact .inr ⟨rest, hs⟩

/-- Settles O40: of the events of a step, those that write `S`, `pos` or `DOUT`. -/
theorem onlyTheirWritersChangeStateAndDigest : Obligations.OnlyTheirWritersChangeStateAndDigest := by
  intro s t h
  cases stepEvent_of_step h with
  | idle | answered | illegal | refused => simp
  | reset rest hs => exact ⟨fun _ => .inl ⟨rest, hs⟩, fun _ => .inl ⟨rest, hs⟩⟩
  | init rest hs =>
    exact ⟨fun _ => .inr ⟨.init, rest, hs, .inl rfl⟩, fun _ => .inr ⟨.init, rest, hs, .inl rfl⟩⟩
  | wipe rest hs =>
    exact ⟨fun _ => .inr ⟨.wipe, rest, hs, .inr (.inl rfl)⟩, fun _ => .inr ⟨.wipe, rest, hs, .inr (.inl rfl)⟩⟩
  | absorb d rest hs hl hp => exact ⟨fun _ => .inr ⟨.absorb d, rest, hs, .inr (.inr ⟨d, rfl⟩)⟩, by simp⟩
  | digest m rest hs hl hp => exact ⟨by simp, fun _ => .inr ⟨digestInstr m, rest, hs, .inr (.inr ⟨m, rfl⟩)⟩⟩

/-- Settles O36: the step of a command write is the command, and no command touches the host's side. -/
theorem stepRunsTheDecodedCommand : Obligations.StepRunsTheDecodedCommand := by
  intro s w i rest hs hd
  refine ⟨?_, fun t ht => exec_host ht⟩
  rw [step_command hs, execWord_legal hd]
  cases exec i { s with script := rest } <;> rfl

end Sys2Proof.Machine

/-! ### The ghost message along lists of commands (R28) -/

namespace Sys2Proof.Machine

/-- A command that neither makes nor ends a context is ABSORB or DIGEST. -/
theorem absorb_or_digest {i : Instr} (h : i ≠ .init ∧ i ≠ .wipe) : (∃ d, i = .absorb d) ∨ ∃ m, i = digestInstr m := by
  cases i with
  | init => exact absurd rfl h.1
  | absorb d => exact .inl ⟨d, rfl⟩
  | digestSha3 => exact .inr ⟨.standard, rfl⟩
  | digestKeccak => exact .inr ⟨.legacyKeccak, rfl⟩
  | wipe => exact absurd rfl h.2

@[simp] theorem messageOf_digest (m : Mode) (is : List Instr) : messageOf (digestInstr m :: is) = messageOf is := by
  cases m <;> rfl

theorem messageAfterAll_append {is : List Instr} {s u : State} (h : execAll is s = .next u) (js : List Instr)
    (M : Message) : messageAfterAll (is ++ js) s M = messageAfterAll js u (messageAfterAll is s M) := by
  induction is generalizing s M with
  | nil => cases h; rfl
  | cons i is ih =>
    cases hi : exec i s with
    | next t =>
      rw [execAll, hi] at h
      rw [List.cons_append, messageAfterAll_cons hi, messageAfterAll_cons hi, ih h]
    | fault f => rw [execAll, hi] at h; cases h
    | refused r => rw [execAll, hi] at h; cases h

/-- A hash command on a live engine completes, the engine stays live, and the message grows by an ABSORB's byte only. -/
theorem exec_hash_live {s : State} (hl : s.live = true) (hp : s.pos.toNat < 136) {i : Instr}
    (hi : (∃ d, i = .absorb d) ∨ ∃ m, i = digestInstr m) (bs : List Byte) :
    ∃ t, exec i s = .next t ∧ t.live = true ∧ messageAfter i s (some bs) = some (bs ++ messageOf [i]) := by
  rcases hi with ⟨d, rfl⟩ | ⟨m, rfl⟩
  · exact ⟨_, exec_absorb_live hl hp d, by simp [hl], messageAfter_absorb_live hl d (some bs)⟩
  · exact ⟨_, exec_digest_live hl hp m, hl, by simp [messageOf]⟩

theorem messageOf_cons (i : Instr) (is : List Instr) : messageOf (i :: is) = messageOf [i] ++ messageOf is := by
  cases i <;> rfl

/-- Hash commands on a live engine: it stays live, and the message grows by the bytes of the ABSORBs, in order. -/
theorem execAll_hash_live (is : List Instr) (his : ∀ i ∈ is, i ≠ .init ∧ i ≠ .wipe) (s : State) (hl : s.live = true)
    (hp : s.pos.toNat < 136) (bs : List Byte) :
    ∃ t, execAll is s = .next t ∧ t.live = true ∧ messageAfterAll is s (some bs) = some (bs ++ messageOf is) := by
  induction is generalizing s bs with
  | nil => exact ⟨s, rfl, hl, by simp [messageAfterAll, messageOf]⟩
  | cons i is ih =>
    obtain ⟨hi, his⟩ := List.forall_mem_cons.mp his
    obtain ⟨u, hu, hlu, hM⟩ := exec_hash_live hl hp (absorb_or_digest hi) bs
    obtain ⟨t, ht, hlt, hMt⟩ := ih his u hlu (exec_keeps_cursor hp hu) (bs ++ messageOf [i])
    refine ⟨t, by rw [execAll, hu]; exact ht, hlt, ?_⟩
    rw [messageAfterAll_cons hu, hM, hMt, messageOf_cons i is, List.append_assoc]

theorem messageAfterStep_of_not_command {s : State} {a : Access} {rest : List Access} (hs : s.script = a :: rest)
    (hreset : a ≠ .reset) (hcmd : ∀ w, a ≠ commandWrite w) (M : Message) : messageAfterStep s M = M := by
  simp only [messageAfterStep, hs]
  cases a with
  | read width off => rfl
  | write width off v =>
    refine messageAfterAccess_write ?_ v s M
    rintro ⟨rfl, rfl⟩
    exact hcmd v rfl
  | reset => exact absurd rfl hreset

/-- Settles O49: the message starts anew at INIT and grows by what ABSORB adds. -/
theorem messageIsWhatWasAbsorbedSinceInit : Obligations.MessageIsWhatWasAbsorbedSinceInit := by
  refine ⟨messageAfter_init, fun s bs d hl => messageAfter_absorb_live hl d (some bs),
    fun s M d hl => messageAfter_absorb_dead hl d M, fun s M m => messageAfter_digest m s M, ?_,
    fun s a rest M hs hr hc => messageAfterStep_of_not_command hs hr hc M,
    fun s M => ⟨_, exec_init s, rfl, rfl⟩, ?_⟩
  · intro before after s u M hu hafter
    have hinit : exec .init u = .next (clearContext true u) := exec_init u
    obtain ⟨t, ht, hlt, hMt⟩ := execAll_hash_live after hafter (clearContext true u) rfl
      (by decide : (0 : BitVec 8).toNat < 136) []
    refine ⟨t, ?_, hlt, ?_⟩
    · rw [execAll_append, hu]
      simp only [execAll, hinit]
      exact ht
    · rw [messageAfterAll_append hu, messageAfterAll_cons hinit, messageAfter_init, hMt, List.nil_append]
  · rintro s M i ⟨hl, bs, rfl⟩ hp hi
    obtain ⟨t, ht, hlt, hM⟩ := exec_hash_live hl hp hi bs
    exact ⟨t, ht, hlt, _, hM⟩

end Sys2Proof.Machine

/-! ### What the host can see (R27, D14) -/

namespace Sys2Proof.Machine

/-- What the host can see of a state: the hidden registers `S`, `pos`, `T` and `rnd` blanked. -/
def State.visible (s : State) : State := { s with A := zeroLanes, pos := 0, TA := zeroLanes, rnd := 0 }

@[simp] theorem visible_script (s : State) : s.visible.script = s.script := rfl
@[simp] theorem visible_responses (s : State) : s.visible.responses = s.responses := rfl

theorem script_eq_of_visible_eq {s t : State} (h : s.visible = t.visible) : s.script = t.script := by
  rw [← visible_script s, h, visible_script]

theorem responses_eq_of_visible_eq {s t : State} (h : s.visible = t.visible) : s.responses = t.responses := by
  rw [← visible_responses s, h, visible_responses]

/-- What the host can see of where a step ends. -/
def visibleOutcome : Host.Outcome State Fault Refusal → Host.Outcome State Fault Refusal
  | .next t    => .next t.visible
  | .fault f   => .fault f
  | .refused r => .refused r

/-- The cursor of the blanked registers is in its range. -/
theorem visible_cursor (s : State) : s.visible.pos.toNat < 136 := (by decide : (0 : BitVec 8).toNat < 136)

theorem visible_respond (r : Response) (s : State) : (respond r s).visible = respond r s.visible := rfl

theorem visible_absorbAt (d : Byte) (r : RateIndex) (s : State) : (absorbAt d r s).visible = s.visible := by
  rw [absorbAt_frame]
  rfl

/-- What the host sees after a command other than DIGEST is settled by what it saw before. -/
theorem visible_exec {s : State} (hp : s.pos.toNat < 136) {i : Instr} (hi : ∀ m, i ≠ digestInstr m) :
    visibleOutcome (exec i s) = visibleOutcome (exec i s.visible) := by
  cases i with
  | init => rfl
  | wipe => rfl
  | digestSha3 => exact absurd rfl (hi .standard)
  | digestKeccak => exact absurd rfl (hi .legacyKeccak)
  | absorb d =>
    rcases Bool.eq_false_or_eq_true s.live with hl | hl
    · rw [exec_absorb_live hl hp, exec_absorb_live (s := s.visible) hl (visible_cursor s)]
      simp only [visibleOutcome, visible_absorbAt]
      rfl
    · rw [exec_absorb_dead hl, exec_absorb_dead (s := s.visible) hl]
      rfl

theorem visible_execWord {s : State} (hp : s.pos.toNat < 136) {w : Word} (hw : ∀ m, w ≠ encode (digestInstr m)) :
    visibleOutcome (execWord w s) = visibleOutcome (execWord w s.visible) := by
  cases hd : decode w with
  | error e => rw [execWord_illegal hd, execWord_illegal hd]; rfl
  | ok i =>
    rw [execWord_legal hd, execWord_legal hd]
    exact visible_exec hp fun m hm => hw m (hm ▸ decode_eq_ok_iff.mp hd)

theorem visible_completeWrite (o : Host.Outcome State Fault Refusal) :
    visibleOutcome (completeWrite o) = completeWrite (visibleOutcome o) := by
  cases o <;> rfl

/-- No register shows a hidden one. -/
theorem readReg_visible (r : Reg) (s : State) : readReg s.visible r = readReg s r := by
  cases r <;> rfl

theorem visible_regRead (width : Width) (off : Nat) (s : State) :
    (regRead width off s).visible = regRead width off s.visible := by
  unfold regRead
  split
  · rw [visible_respond, readReg_visible]
  · rfl

/-- What the host sees after an access other than a DIGEST is settled by what it saw before. -/
theorem visible_performAccess {s : State} (hp : s.pos.toNat < 136) {a : Access}
    (ha : ∀ m, a ≠ commandWrite (encode (digestInstr m))) :
    visibleOutcome (performAccess a s) = visibleOutcome (performAccess a s.visible) := by
  cases a with
  | reset => rfl
  | read width off =>
    simp only [performAccess, visibleOutcome, visible_regRead]
    rfl
  | write width off v =>
    by_cases hc : width = .word ∧ off = 0
    · obtain ⟨rfl, rfl⟩ := hc
      simp only [performAccess, regWrite_cmd, visible_completeWrite]
      rw [visible_execWord hp fun m hm => ha m (hm ▸ rfl)]
    · simp only [performAccess, regWrite_busError hc]
      rfl

theorem visible_step {s : State} (hp : s.pos.toNat < 136)
    (hs : ∀ a ∈ s.script, ∀ m, a ≠ commandWrite (encode (digestInstr m))) :
    visibleOutcome (step s) = visibleOutcome (step s.visible) := by
  cases hscript : s.script with
  | nil => rw [step_nil hscript, step_nil (s := s.visible) hscript]; rfl
  | cons a rest =>
    rw [step_cons hscript, step_cons (s := s.visible) hscript]
    exact visible_performAccess (s := { s with script := rest }) hp (hs a (by simp [hscript]))

/-- Two engines that look alike still look alike after a step that issues no DIGEST. -/
theorem step_keeps_visible_eq {s₁ s₂ t₁ t₂ : State} (hp₁ : s₁.pos.toNat < 136) (hp₂ : s₂.pos.toNat < 136)
    (hv : s₁.visible = s₂.visible) (hs : ∀ a ∈ s₁.script, ∀ m, a ≠ commandWrite (encode (digestInstr m)))
    (h₁ : step s₁ = .next t₁) (h₂ : step s₂ = .next t₂) : t₁.visible = t₂.visible := by
  have hscript := script_eq_of_visible_eq hv
  have hsteps : visibleOutcome (step s₁) = visibleOutcome (step s₂) := by
    rw [visible_step hp₁ hs, hv, ← visible_step hp₂ (hscript ▸ hs)]
  rw [h₁, h₂] at hsteps
  exact Host.Outcome.next.inj hsteps

/-- A step takes the next access, if one is left, off the host's program. -/
theorem step_script {s t : State} (h : step s = .next t) : t.script = s.script.tail := by
  cases stepEvent_of_step h with
  | idle hs | reset _ hs | answered _ _ _ hs | illegal _ _ hs | init _ hs | wipe _ hs | refused _ _ hs
  | absorb _ _ hs | digest _ _ hs => simp [hs]

theorem run_keeps_visible_eq (n : Nat) (s₁ s₂ : State) (hp₁ : s₁.pos.toNat < 136) (hp₂ : s₂.pos.toNat < 136)
    (hv : s₁.visible = s₂.visible) (hs : ∀ a ∈ s₁.script, ∀ m, a ≠ commandWrite (encode (digestInstr m))) :
    ∃ t₁ t₂ : State, Sys2Proof.core.run n s₁ = .next t₁ ∧ Sys2Proof.core.run n s₂ = .next t₂ ∧ t₁.visible = t₂.visible := by
  induction n generalizing s₁ s₂ with
  | zero => exact ⟨s₁, s₂, rfl, rfl, hv⟩
  | succ n ih =>
    obtain ⟨u₁, hu₁⟩ := step_completes hp₁
    obtain ⟨u₂, hu₂⟩ := step_completes hp₂
    rw [core_run_succ hu₁, core_run_succ hu₂]
    refine ih u₁ u₂ (step_keeps_cursor hp₁ hu₁) (step_keeps_cursor hp₂ hu₂)
      (step_keeps_visible_eq hp₁ hp₂ hv hs hu₁ hu₂) fun a ha => hs a ?_
    rw [step_script hu₁] at ha
    exact List.mem_of_mem_tail ha

/-- Settles O47: what the host sees next is settled by what it sees, until a DIGEST. -/
theorem hiddenStateShowsOnlyThroughDigest : Obligations.HiddenStateShowsOnlyThroughDigest := by
  intro n s₁ s₂ hp₁ hp₂ hlive hdvalid hill huaw hdout hscript hresponses hno
  have hv : s₁.visible = s₂.visible := by
    simp only [State.visible, hlive, hdvalid, hill, huaw, hdout, hscript, hresponses]
  have hs : ∀ a ∈ s₁.script, ∀ m, a ≠ commandWrite (encode (digestInstr m)) := by
    intro a ha m
    cases m with
    | standard => exact (hno a ha).1
    | legacyKeccak => exact (hno a ha).2
  obtain ⟨t₁, t₂, h₁, h₂, ht⟩ := run_keeps_visible_eq n s₁ s₂ hp₁ hp₂ hv hs
  exact ⟨t₁, t₂, h₁, h₂, responses_eq_of_visible_eq ht, script_eq_of_visible_eq ht⟩

end Sys2Proof.Machine

/-! ### Accesses the bus rejects, and faults of the writes it takes (R39, R40, R121, R122) -/

namespace Sys2Proof.Machine

theorem legal_encode (i : Instr) : legal (encode i) = true := by
  cases i with
  | init => exact Laws.EncodesLegally.init.2
  | absorb d => exact (Laws.EncodesLegally.absorb d).2
  | digestSha3 => exact Laws.EncodesLegally.digestSha3.2
  | digestKeccak => exact Laws.EncodesLegally.digestKeccak.2
  | wipe => exact Laws.EncodesLegally.wipe.2

/-- A word outside R57's formula is rejected by the decoder. -/
theorem decode_error_of_not_legal {w : Word} (h : legal w = false) : ∃ e, decode w = .error e := by
  cases hd : decode w with
  | error e => exact ⟨e, rfl⟩
  | ok i =>
    rw [decode_eq_ok_iff.mp hd, legal_encode] at h
    cases h

/-- A write the bus does not pass on to `CMD` is answered with an error, whatever word it carries (R121). -/
theorem step_write_busError {s : State} {width : Width} {off : Nat} {v : Word} {rest : List Access}
    (h : s.script = .write width off v :: rest) (hc : ¬ (width = .word ∧ off = 0)) :
    step s = .next { s with script := rest, responses := s.responses ++ [.busError] } := by
  rw [step_cons h]
  exact regWrite_busError hc v _

/-- R119: an illegal word written to `CMD` sets `ILL` and completes, whatever `LIVE` is. -/
theorem step_illegal {s : State} {w : Word} {rest : List Access} (h : s.script = commandWrite w :: rest)
    (hw : legal w = false) :
    step s = .next { s with script := rest, ill := true, responses := s.responses ++ [.done] } := by
  obtain ⟨e, he⟩ := decode_error_of_not_legal hw
  rw [step_command h, execWord_illegal he]
  rfl

theorem exec_hash_dead {s : State} (hl : s.live = false) {i : Instr}
    (hi : (∃ d, i = .absorb d) ∨ ∃ m, i = digestInstr m) : exec i s = .next { s with uaw := true } := by
  obtain ⟨d, rfl⟩ | ⟨m, rfl⟩ := hi
  · exact exec_absorb_dead hl d
  · exact exec_digest_dead hl m

/-- R120: ABSORB or DIGEST written to `CMD` without a context sets `UAW` and completes. -/
theorem step_refused {s : State} {i : Instr} {rest : List Access} (h : s.script = commandWrite (encode i) :: rest)
    (hl : s.live = false) (hi : (∃ d, i = .absorb d) ∨ ∃ m, i = digestInstr m) :
    step s = .next { s with script := rest, uaw := true, responses := s.responses ++ [.done] } := by
  rw [step_command h, execWord_legal (decode_encode i), exec_hash_dead (s := { s with script := rest }) hl hi]
  rfl

/-- Settles O33: the bus rejects an access before any word is decoded, and a word is decoded before `LIVE` is looked at. -/
theorem rejectedAccessesChangeNothing : Obligations.RejectedAccessesChangeNothing := by
  refine ⟨fun s width off rest h hrej => step_read_busError h (selectReg_none hrej),
    fun s width off v rest h hrej => step_write_busError h ?_,
    fun s rest h => step_read h (r := .cmd) rfl,
    fun s w rest => step_illegal,
    fun s i rest => step_refused⟩
  rintro ⟨rfl, rfl⟩
  simp at hrej

/-- Settles O42: a step with no access left is the identity. -/
theorem idleEngineHoldsItsState : Obligations.IdleEngineHoldsItsState := fun _ h => step_nil h

end Sys2Proof.Machine

/-! ### The legal command words and the opcode table (R49 to R57) -/

namespace Sys2Proof.Machine

/-- The fields a command encodes to pass the checks of format C. -/
theorem wellFormed_instr (i : Instr) : i.WellFormed := by
  cases i with
  | init => exact Laws.EncodesLegally.init.1
  | absorb d => exact (Laws.EncodesLegally.absorb d).1
  | digestSha3 => exact Laws.EncodesLegally.digestSha3.1
  | digestKeccak => exact Laws.EncodesLegally.digestKeccak.1
  | wipe => exact Laws.EncodesLegally.wipe.1

/-- Settles O26: the fields of a word are the word, so one command's word is the only one that decodes to it. -/
theorem decodeInvertsEncode : Obligations.DecodeInvertsEncode :=
  ⟨fun i _ => decode_encode i, fun _ i h => ⟨wellFormed_instr i, decode_eq_ok_iff.mp h⟩⟩

theorem encode_injective : Function.Injective encode := fun i _ h =>
  Except.ok.inj ((decode_encode i).symm.trans (decode_eq_ok_iff.mpr h))

theorem legal_iff_exists_encode {w : Word} : legal w = true ↔ ∃ i, w = encode i := by
  refine ⟨exists_encode_of_legal, ?_⟩
  rintro ⟨i, rfl⟩
  exact legal_encode i

/-- R50, R51: fields that pass the four checks of format C are those of a command. -/
theorem exists_fields_of_wellFormed {f : Fields} (h : f.wellFormed = true) : ∃ i : Instr, f = i.fields := by
  simp only [Fields.wellFormed, Fields.opcodeKnown, Fields.reservedZero, Fields.modeAllowed, Fields.dataAllowed,
    Bool.and_eq_true, Bool.or_eq_true, beq_iff_eq] at h
  obtain ⟨⟨⟨hop, hrsv⟩, hmode⟩, hdata⟩ := h
  obtain ((hop | hop) | hop) | hop := hop
  · exact ⟨.init, fields_eq hop hrsv (hmode.resolve_left (by simp [hop])) (hdata.resolve_left (by simp [hop]))⟩
  · exact ⟨.absorb f.data, fields_eq hop hrsv (hmode.resolve_left (by simp [hop])) rfl⟩
  · have hd : f.data = 0 := hdata.resolve_left (by simp [hop])
    rcases BitVec.eq_zero_or_eq_one f.mode with hm | hm
    · exact ⟨.digestSha3, fields_eq hop hrsv hm hd⟩
    · exact ⟨.digestKeccak, fields_eq hop hrsv hm hd⟩
  · exact ⟨.wipe, fields_eq hop hrsv (hmode.resolve_left (by simp [hop])) (hdata.resolve_left (by simp [hop]))⟩

/-- R57's formula is the four checks of format C. -/
theorem legal_eq_wellFormed (w : Word) : legal w = (Fields.ofWord w).wellFormed := by
  rw [Bool.eq_iff_iff, legal_iff_exists_encode]
  constructor
  · rintro ⟨i, rfl⟩
    rw [encode, ofWord_toWord]
    exact wellFormed_instr i
  · intro h
    obtain ⟨i, hi⟩ := exists_fields_of_wellFormed h
    exact ⟨i, eq_encode_of_fields hi⟩

/-- Every command once: four without an operand, and an ABSORB for each byte. -/
def allInstrs : List Instr :=
  [.init, .digestSha3, .digestKeccak, .wipe] ++ (List.finRange 256).map fun d => .absorb (BitVec.ofFin d)

theorem mem_allInstrs (i : Instr) : i ∈ allInstrs := by
  cases i with
  | absorb d => exact List.mem_append_right _ (List.mem_map.mpr ⟨d.toFin, List.mem_finRange _, rfl⟩)
  | _ => simp [allInstrs]

theorem nodup_allInstrs : allInstrs.Nodup := by
  refine List.nodup_append.mpr ⟨by decide, ?_, ?_⟩
  · exact (List.nodup_finRange 256).map fun a b h => BitVec.ofFin.inj (Instr.absorb.inj h)
  · simp

theorem length_allInstrs : allInstrs.length = 260 := by simp [allInstrs]

/-- Settles O27: the legal words are the words of the commands, of which there are 260. -/
theorem exactlyTheLegalWordsDecode : Obligations.ExactlyTheLegalWordsDecode := by
  refine ⟨fun w => ?_, fun w => ⟨decode_error_of_not_legal, fun ⟨e, he⟩ => not_legal_of_decode_error he⟩,
    legal_eq_wellFormed, ⟨allInstrs.map encode, nodup_allInstrs.map encode_injective, ?_, fun w => ?_⟩,
    fun w s hw => ?_⟩
  · simp only [legal_iff_exists_encode, decode_eq_ok_iff]
  · rw [List.length_map, length_allInstrs]
  · simp only [List.mem_map, mem_allInstrs, true_and, legal_iff_exists_encode, eq_comm (a := w)]
  · obtain ⟨e, he⟩ := decode_error_of_not_legal hw
    exact execWord_illegal he s

/-- R53: the words under ABSORB's mask are those of its 256 bytes. -/
theorem and_absorb_mask_eq_iff {w : Word} : w &&& 0xFFFFFF00#32 = 0x20000000#32 ↔ ∃ d, w = encode (.absorb d) := by
  constructor
  · exact fun h => ⟨_, eq_encode_of_fields (fields_of_legal_absorb h)⟩
  · rintro ⟨d, rfl⟩
    revert d
    decide

/-- A command without an operand has one word, so its row's mask leaves no bit out. -/
theorem and_full_mask_eq_iff {w : Word} {i : Instr} {name : String} (hname : ∀ j : Instr, j.mnemonic = name ↔ j = i) :
    w &&& 0xFFFFFFFF#32 = encode i ↔ ∃ j, w = encode j ∧ j.mnemonic = name := by
  have hmask : w &&& 0xFFFFFFFF#32 = w := BitVec.and_allOnes
  simp only [hmask, hname, exists_eq_right]

/-- A row of the opcode table accepts the words of the commands with its mnemonic, and no other word. -/
theorem accepts_iff {r : OpcodeRow} (hr : r ∈ opcodeRows) (w : Word) :
    r.accepts w = true ↔ ∃ i, w = encode i ∧ i.mnemonic = r.mnemonic := by
  simp only [opcodeRows, List.mem_cons, List.not_mem_nil, or_false] at hr
  simp only [OpcodeRow.accepts, beq_iff_eq]
  obtain rfl | rfl | rfl | rfl | rfl := hr
  · exact and_full_mask_eq_iff (i := .init) fun j => by cases j <;> simp [Instr.mnemonic]
  · rw [and_absorb_mask_eq_iff]
    constructor
    · rintro ⟨d, hd⟩
      exact ⟨.absorb d, hd, rfl⟩
    · rintro ⟨i, hi, hname⟩
      cases i with
      | absorb d => exact ⟨d, hi⟩
      | _ => simp [Instr.mnemonic] at hname
  · exact and_full_mask_eq_iff (i := .digestSha3) fun j => by cases j <;> simp [Instr.mnemonic]
  · exact and_full_mask_eq_iff (i := .digestKeccak) fun j => by cases j <;> simp [Instr.mnemonic]
  · exact and_full_mask_eq_iff (i := .wipe) fun j => by cases j <;> simp [Instr.mnemonic]

theorem accepts_encode {r : OpcodeRow} (hr : r ∈ opcodeRows) (i : Instr) :
    r.accepts (encode i) = (r.mnemonic == i.mnemonic) := by
  rw [Bool.eq_iff_iff, accepts_iff hr, beq_iff_eq]
  constructor
  · rintro ⟨j, hj, hname⟩
    rw [← hname, encode_injective hj]
  · exact fun h => ⟨i, rfl, h.symm⟩

/-- Settles O28: the rows' mnemonics differ, and each row accepts just the words of its mnemonic's commands. -/
theorem eachLegalWordHasOneTableRow : Obligations.EachLegalWordHasOneTableRow := by
  constructor
  · intro w i h
    obtain rfl := decode_eq_ok_iff.mp h
    rw [List.filter_congr fun r hr => accepts_encode hr i]
    cases i <;> rfl
  · intro w e he
    refine List.filter_eq_nil_iff.mpr fun r hr ha => ?_
    obtain ⟨i, rfl, -⟩ := (accepts_iff hr w).mp ha
    rw [decode_encode] at he
    cases he

end Sys2Proof.Machine

/-! ### A whole host program: construct, update, digest, read and dispose (R62, R112) -/

namespace Sys2Proof.Machine

/-- R112: the host program of a state run to its end. -/
def runProgram (s : State) : Host.Outcome State Fault Refusal := Sys2Proof.core.run s.script.length s

theorem runProgram_nil {s : State} (h : s.script = []) : runProgram s = .next s := by
  rw [runProgram, h]
  rfl

theorem runProgram_cons {s t : State} {a : Access} {rest : List Access} (hs : s.script = a :: rest)
    (h : step s = .next t) : runProgram s = runProgram t := by
  rw [runProgram, runProgram, step_script h, hs]
  exact core_run_succ h rest.length

/-- `t` stands further along the program of `s`: `rest` is still to be run, the reads made since returned `vs`, and no
fault was recorded. -/
structure State.Reaches (s t : State) (rest : List Access) (vs : List Word) : Prop where
  run    : runProgram s = runProgram t
  script : t.script = rest
  ill    : t.ill = s.ill
  uaw    : t.uaw = s.uaw
  values : t.readValues = s.readValues ++ vs

namespace State.Reaches

variable {s t u : State} {rest rest' : List Access} {vs vs' : List Word}

theorem refl (h : s.script = rest) : s.Reaches s rest [] := ⟨rfl, h, rfl, rfl, (List.append_nil _).symm⟩

theorem trans (hst : s.Reaches t rest vs) (htu : t.Reaches u rest' vs') : s.Reaches u rest' (vs ++ vs') where
  run := hst.run.trans htu.run
  script := htu.script
  ill := htu.ill.trans hst.ill
  uaw := htu.uaw.trans hst.uaw
  values := by rw [htu.values, hst.values, List.append_assoc]

/-- A command write that is neither illegal nor refused returns no value. -/
theorem of_exec {i : Instr} (hs : s.script = commandWrite (encode i) :: rest)
    (hu : exec i { s with script := rest } = .next u) (hill : u.ill = s.ill) (huaw : u.uaw = s.uaw) :
    s.Reaches (respond .done u) rest [] := by
  obtain ⟨hscript, hresponses⟩ := exec_host hu
  refine ⟨runProgram_cons hs ?_, hscript, hill, huaw, by simp [State.readValues, hresponses]⟩
  rw [step_command hs, execWord_legal (decode_encode i), hu]
  rfl

/-- A read of a register returns its value. -/
theorem of_read {r : Reg} (hs : s.script = .read .word r.offset :: rest) :
    s.Reaches { s with script := rest, responses := s.responses ++ [.data (readReg s r)] } rest [readReg s r] :=
  ⟨runProgram_cons hs (step_read hs rfl), rfl, rfl, rfl, by simp [State.readValues]⟩

end State.Reaches

theorem cursor_of_represents {s : State} {M : List Byte} (h : s.Represents M) : s.pos.toNat < 136 := by
  obtain ⟨-, hpos⟩ := h
  omega

theorem reaches_init {s : State} {rest : List Access} (hs : s.script = commandWrite (encode .init) :: rest) :
    ∃ t : State, s.Reaches t rest [] ∧ t.live = true ∧ t.Represents [] :=
  ⟨_, .of_exec hs (exec_init _) rfl rfl, rfl, absorbedLanes_nil.symm, rfl⟩

/-- R66 as a host access: an ABSORB write adds its byte to the message the state represents. -/
theorem reaches_absorb {s : State} {M : List Byte} {d : Byte} {rest : List Access}
    (hs : s.script = commandWrite (encode (.absorb d)) :: rest) (hl : s.live = true) (hM : s.Represents M) :
    ∃ t : State, s.Reaches t rest [] ∧ t.live = true ∧ t.Represents (M ++ [d]) :=
  ⟨_, .of_exec hs (exec_absorb_live (s := { s with script := rest }) hl (cursor_of_represents hM) d) (absorbAt_ill ..)
    (absorbAt_uaw ..), (absorbAt_live ..).trans hl, absorbAt_represents (s := { s with script := rest }) hM _ d⟩

/-- R67 as a host program: the ABSORB writes of a buffer add it to the message the state represents. -/
theorem reaches_absorbs (bs : List Byte) {rest : List Access} {s : State} {M : List Byte}
    (hs : s.script = (absorbWords bs).map commandWrite ++ rest) (hl : s.live = true) (hM : s.Represents M) :
    ∃ t : State, s.Reaches t rest [] ∧ t.live = true ∧ t.Represents (M ++ bs) := by
  induction bs generalizing s M with
  | nil => exact ⟨s, .refl hs, hl, by rwa [List.append_nil]⟩
  | cons d bs ih =>
    obtain ⟨u, hu, hlu, hMu⟩ := reaches_absorb hs hl hM
    obtain ⟨t, ht, hlt, hMt⟩ := ih hu.script hlu hMu
    exact ⟨t, hu.trans ht, hlt, by rwa [List.append_assoc] at hMt⟩

/-- R88 as a host program: DIGEST leaves the digest of the message the state represents in `DOUT`. -/
theorem reaches_digest {s : State} {M : List Byte} {m : Mode} {rest : List Access}
    (hs : s.script = commandWrite (encode (digestInstr m)) :: rest) (hl : s.live = true) (hM : s.Represents M) :
    ∃ t : State, s.Reaches t rest [] ∧ t.dout = digestOfMessage M m :=
  ⟨_, .of_exec hs (exec_digest_live (s := { s with script := rest }) hl (cursor_of_represents hM) m) rfl rfl,
    digestAt_dout_eq (s := { s with script := rest }) hM _ m⟩

/-- R33: reads of digest words return those words of `DOUT`. -/
theorem reaches_reads (js : List (Fin 8)) {rest : List Access} {s : State}
    (hs : s.script = js.map (fun j => .read .word (Reg.offset (.dout j))) ++ rest) :
    ∃ t : State, s.Reaches t rest (js.map (doutWord s.dout)) := by
  induction js generalizing s with
  | nil => exact ⟨s, .refl hs⟩
  | cons j js ih =>
    have hstep := State.Reaches.of_read (r := .dout j) hs
    obtain ⟨t, ht⟩ := ih hstep.script
    exact ⟨t, hstep.trans ht⟩

/-- R91 as a host access: a wiped engine is the reset one but for the sticky flags. -/
theorem reaches_wipe {s : State} (hs : s.script = [commandWrite (encode .wipe)]) :
    ∃ t : State, s.Reaches t [] [] ∧
      t = { State.reset with ill := s.ill, uaw := s.uaw, responses := t.responses } :=
  ⟨_, .of_exec hs (exec_wipe _) rfl rfl, rfl⟩

/-- Settles O48: the program's five parts, one after another; each leaves the sticky flags alone. -/
theorem hashSequenceReturnsTheDigestAndEndsClean : Obligations.HashSequenceReturnsTheDigestAndEndsClean := by
  intro s bs m hs
  simp only [List.cons_append, List.append_assoc] at hs
  obtain ⟨s₁, h₁, hl₁, hM₁⟩ := reaches_init hs
  obtain ⟨s₂, h₂, hl₂, hM₂⟩ := reaches_absorbs bs h₁.script hl₁ hM₁
  obtain ⟨s₃, h₃, hdout⟩ := reaches_digest h₂.script hl₂ hM₂
  obtain ⟨s₄, h₄⟩ := reaches_reads _ h₃.script
  obtain ⟨t, h₅, ht⟩ := reaches_wipe h₄.script
  have hto₄ := ((h₁.trans h₂).trans h₃).trans h₄
  have hto := hto₄.trans h₅
  rw [hto₄.ill, hto₄.uaw] at ht
  refine ⟨t, hto.run.trans (runProgram_nil hto.script), ht, ?_, fun hill huaw => ?_⟩
  · simp [hto.values, hdout]
  · exact ⟨congrArg State.live ht, hto.ill.trans hill, hto.uaw.trans huaw⟩

end Sys2Proof.Machine

/-! ### INIT makes a fresh context and discards the old one (R63, R64) -/

namespace Sys2Proof.Machine

/-- R64: clearing a context leaves nothing of an earlier clearing, not even which of the two commands it was. -/
@[simp] theorem clearContext_clearContext (l k : Bool) (s : State) :
    clearContext l (clearContext k s) = clearContext l s := rfl

/-- R64: a cleared context depends on the state before it in the sticky flags and the host's side alone. -/
theorem clearContext_eq_clearContext_with (l : Bool) (s₁ s₂ : State) :
    clearContext l s₁ =
      { clearContext l s₂ with
        ill := s₁.ill, uaw := s₁.uaw, script := s₁.script, responses := s₁.responses } := rfl

/-- R31 of a cleared context: `DVALID` reads 0, `LIVE` as given, and the sticky flags as before. -/
theorem statusWord_clearContext (l : Bool) (s : State) :
    statusWord (clearContext l s) =
      (BitVec.ofBool s.uaw ++ BitVec.ofBool s.ill ++ BitVec.ofBool false ++ BitVec.ofBool l).setWidth 32 := rfl

/-- Settles O2: the word is INIT's, and INIT answers the cleared context with `LIVE` set, read field by field. -/
theorem initMakesAFreshContext : Obligations.InitMakesAFreshContext := by
  refine ⟨decode_encode .init, fun s => ⟨_, exec_init s, ?_⟩, _, exec_init State.reset, ?_⟩
  · exact ⟨clearContext_A .., clearContext_pos .., clearContext_TA .., clearContext_dout .., clearContext_dvalid ..,
      clearContext_live .., clearContext_ill .., clearContext_uaw .., clearContext_script .., clearContext_responses ..⟩
  · rw [statusWord_clearContext]
    decide

/-- Settles O3: INIT and WIPE clear the context alike, and a cleared context keeps only the sticky flags and the host's
side. -/
theorem initDiscardsTheOldContext : Obligations.InitDiscardsTheOldContext := by
  constructor
  · intro s
    refine ⟨_, exec_wipe s, ?_⟩
    rw [exec_init, clearContext_clearContext, exec_init]
  · intro s₁ s₂
    exact ⟨_, _, exec_init s₁, exec_init s₂, clearContext_eq_clearContext_with true s₁ s₂⟩

end Sys2Proof.Machine

/-! ### ABSORB: what it writes, and what its effect depends on (R66, R74) -/

namespace Sys2Proof.Machine

@[simp] theorem absorbAt_responses (d : Byte) (r : RateIndex) (s : State) :
    (absorbAt d r s).responses = s.responses := by
  rw [absorbAt_frame]

/-- The cursor at the last rate byte, as a word and as a number. -/
theorem pos_eq_last_iff {s : State} : s.pos = 135#8 ↔ s.pos.toNat = 135 :=
  BitVec.toNat_inj.symm

/-- ABSORB at the cursor as one update: the block is closed from the last rate byte only. -/
theorem absorbAt_cursor_eq {s : State} (hp : s.pos.toNat < 136) (d : Byte) :
    absorbAt d ⟨s.pos.toNat, hp⟩ s =
      if s.pos = 135#8 then
        { s with A := keccakF (xorByte s.A (RateIndex.byte ⟨s.pos.toNat, hp⟩) d), pos := 0#8, rnd := 0#5 }
      else { s with A := xorByte s.A (RateIndex.byte ⟨s.pos.toNat, hp⟩) d, pos := s.pos + 1#8 } := by
  simp only [pos_eq_last_iff]
  split
  case isTrue he => exact absorbAt_of_eq rfl he d
  case isFalse hne => exact absorbAt_of_ne rfl hne d

/-- Settles O7: the word is ABSORB's, and the byte enters the bank at the cursor alone. -/
theorem absorbXorsOneByteAtTheCursor : Obligations.AbsorbXorsOneByteAtTheCursor := by
  refine ⟨fun d => decode_eq_ok_iff.mpr ?_, fun s d hl hp => ?_, fun s d hl => exec_absorb_dead hl d⟩
  · revert d
    decide
  · refine ⟨xorByte s.A (RateIndex.byte ⟨s.pos.toNat, hp⟩) d, fun k => ?_, ?_⟩
    · by_cases hk : k.val = s.pos.toNat
      · obtain rfl : k = RateIndex.byte ⟨s.pos.toNat, hp⟩ := Fin.ext hk
        simp
      · have hne : k ≠ RateIndex.byte ⟨s.pos.toNat, hp⟩ := fun h => hk (congrArg Fin.val h)
        rw [byteAt_xorByte, if_neg hne, if_neg hk]
    · rw [exec_absorb_live hl hp, absorbAt_cursor_eq]

/-- Everything ABSORB can do when it answers a next state. -/
theorem exec_absorb_next {s t : State} {d : Byte} (h : exec (.absorb d) s = .next t) :
    (s.live = false ∧ t = { s with uaw := true }) ∨
      (s.live = true ∧ ∃ hp : s.pos.toNat < 136, t = absorbAt d ⟨s.pos.toNat, hp⟩ s) :=
  onLiveContext_next (e := fun r => absorbAt d r s) h

/-- Everything DIGEST can do when it answers a next state. -/
theorem exec_digest_next {s t : State} {m : Mode} (h : exec (digestInstr m) s = .next t) :
    (s.live = false ∧ t = { s with uaw := true }) ∨
      (s.live = true ∧ ∃ hp : s.pos.toNat < 136, t = digestAt m ⟨s.pos.toNat, hp⟩ s) := by
  rw [exec_digest] at h
  exact onLiveContext_next h

/-- R74: what ABSORB makes of `S` and `pos` depends on them and on the byte. -/
theorem absorbAt_congr {s₁ s₂ : State} (hA : s₁.A = s₂.A) (hpos : s₁.pos = s₂.pos) (d : Byte) (r : RateIndex) :
    (absorbAt d r s₁).A = (absorbAt d r s₂).A ∧ (absorbAt d r s₁).pos = (absorbAt d r s₂).pos := by
  simp only [absorbAt, hA, hpos]
  split
  · simp
  · simp

/-- Settles O8: a refused ABSORB sets `UAW` and an executed one is `absorbAt`, whose frame and inputs are known. -/
theorem absorbTouchesOnlyStateAndCursor : Obligations.AbsorbTouchesOnlyStateAndCursor := by
  refine ⟨fun s t d h => ?_, fun s₁ s₂ t₁ t₂ d hA hpos hlive h₁ h₂ => ?_, fun s t m h => ?_⟩
  · obtain ⟨hl, rfl⟩ | ⟨hl, hp, rfl⟩ := exec_absorb_next h <;> simp [hl]
  · obtain ⟨hl, rfl⟩ | ⟨hl, hp, rfl⟩ := exec_absorb_next h₁
    · rw [exec_absorb_dead (hlive ▸ hl)] at h₂
      obtain rfl := Host.Outcome.next.inj h₂
      exact ⟨hA, hpos⟩
    · rw [exec_absorb_live (hlive ▸ hl) (hpos ▸ hp)] at h₂
      obtain rfl := Host.Outcome.next.inj h₂
      simp only [← hpos]
      exact absorbAt_congr hA hpos d _
  · obtain ⟨-, rfl⟩ | ⟨-, hp, rfl⟩ := exec_digest_next h <;> simp

end Sys2Proof.Machine

/-! ### Absorbing a buffer, in one piece or in chunks (R67, R69, R70, R72) -/

namespace Sys2Proof.Machine

@[simp] theorem absorbBuf_nil (s : State) : absorbBuf [] s = .next s := rfl

theorem absorbBuf_cons {s : State} (hl : s.live = true) (hp : s.pos.toNat < 136) (d : Byte) (bs : List Byte) :
    absorbBuf (d :: bs) s = absorbBuf bs (absorbAt d ⟨s.pos.toNat, hp⟩ s) := by
  simp only [absorbBuf, List.map_cons, execAll, exec_absorb_live hl hp]

theorem absorbBuf_append {s t : State} {bs : List Byte} (h : absorbBuf bs s = .next t) (cs : List Byte) :
    absorbBuf (bs ++ cs) s = absorbBuf cs t := by
  rw [absorbBuf] at h
  rw [absorbBuf, List.map_append, execAll_append, h]
  rfl

theorem absorbBuf_append_fault {s : State} {bs : List Byte} {f : Fault} (h : absorbBuf bs s = .fault f)
    (cs : List Byte) : absorbBuf (bs ++ cs) s = .fault f := by
  rw [absorbBuf] at h
  rw [absorbBuf, List.map_append, execAll_append, h]

theorem absorbBuf_append_refused {s : State} {bs : List Byte} {r : Refusal} (h : absorbBuf bs s = .refused r)
    (cs : List Byte) : absorbBuf (bs ++ cs) s = .refused r := by
  rw [absorbBuf] at h
  rw [absorbBuf, List.map_append, execAll_append, h]

/-- R70: the chunks one after another are their concatenation. -/
theorem absorbChunks_eq_absorbBuf_flatten (cs : List (List Byte)) (s : State) :
    absorbChunks cs s = absorbBuf cs.flatten s := by
  induction cs generalizing s with
  | nil => rfl
  | cons c cs ih =>
    cases hc : absorbBuf c s with
    | next t => rw [absorbChunks, hc, List.flatten_cons, absorbBuf_append hc]; exact ih t
    | fault f => rw [absorbChunks, hc, List.flatten_cons, absorbBuf_append_fault hc]
    | refused r => rw [absorbChunks, hc, List.flatten_cons, absorbBuf_append_refused hc]

/-- R72, from the state's own cursor. -/
theorem absorbAt_cursor_pos_toNat {s : State} (hp : s.pos.toNat < 136) (d : Byte) :
    (absorbAt d ⟨s.pos.toNat, hp⟩ s).pos.toNat = (s.pos.toNat + 1) % 136 := absorbAt_pos_toNat rfl d

/-- R72: a buffer is absorbed whole on a live engine, which stays live, and the cursor advances modulo the rate. -/
theorem absorbBuf_live (bs : List Byte) {s : State} (hl : s.live = true) (hp : s.pos.toNat < 136) :
    ∃ t, absorbBuf bs s = .next t ∧ t.live = true ∧ t.pos.toNat = (s.pos.toNat + bs.length) % 136 := by
  induction bs generalizing s with
  | nil => exact ⟨s, rfl, hl, (Nat.mod_eq_of_lt hp).symm⟩
  | cons d bs ih =>
    have hpos := absorbAt_cursor_pos_toNat hp d
    obtain ⟨t, ht, hlt, hpt⟩ := ih (s := absorbAt d ⟨s.pos.toNat, hp⟩ s) (by simpa using hl) (by omega)
    refine ⟨t, (absorbBuf_cons hl hp d bs).trans ht, hlt, ?_⟩
    rw [hpt, hpos, List.length_cons]
    omega

/-- R69: on a live engine DIGEST commands among the ABSORB commands make no difference to `S` and `pos`. -/
theorem execAll_hash_eq_absorbBuf (is : List Instr) (his : ∀ i ∈ is, (∃ d, i = .absorb d) ∨ ∃ m, i = digestInstr m)
    {s u : State} (hls : s.live = true) (hlu : u.live = true) (hp : s.pos.toNat < 136) (hA : s.A = u.A)
    (hpos : s.pos = u.pos) :
    ∃ t v, execAll is s = .next t ∧ absorbBuf (messageOf is) u = .next v ∧ t.A = v.A ∧ t.pos = v.pos := by
  induction is generalizing s u with
  | nil => exact ⟨s, u, rfl, rfl, hA, hpos⟩
  | cons i is ih =>
    obtain ⟨⟨d, rfl⟩ | ⟨m, rfl⟩, hrest⟩ := List.forall_mem_cons.mp his
    · have hs := exec_absorb_live hls hp d
      obtain ⟨hA', hpos'⟩ := absorbAt_congr hA hpos d ⟨s.pos.toNat, hp⟩
      rw [execAll, hs, messageOf, absorbBuf_cons hlu (hpos ▸ hp)]
      simp only [← hpos]
      exact ih hrest (by simpa using hls) (by simpa using hlu) (exec_keeps_cursor hp hs) hA' hpos'
    · rw [execAll, exec_digest_live hls hp, messageOf_digest]
      exact ih hrest hls hlu hp hA hpos

/-- Settles O9: chunks are cut out of one list of commands, and DIGEST leaves what ABSORB reads. -/
theorem streamingEquivalence : Obligations.StreamingEquivalence :=
  ⟨absorbChunks_eq_absorbBuf_flatten, absorbBuf_nil,
    fun is _ hl hp his => execAll_hash_eq_absorbBuf is his hl hl hp rfl rfl⟩

end Sys2Proof.Machine

/-! ### Block-wise absorption (R68) -/

namespace Sys2Proof.Machine

/-- The end of R66 and of a run of R68: a full block is permuted and the cursor starts again. -/
def closeBlock (s : State) : State := if s.pos = 136 then { permuteBank .state s with pos := 0 } else s

theorem closeBlock_of_lt {s : State} (hp : s.pos.toNat < 136) : closeBlock s = s :=
  if_neg fun h => by simp [h] at hp

theorem absorbAt_eq_closeBlock (d : Byte) (r : RateIndex) (s : State) :
    absorbAt d r s = closeBlock { s with A := xorByte s.A r.byte d, pos := s.pos + 1 } := rfl

theorem absorbRun_eq_closeBlock (xs : List Byte) (s : State) :
    absorbRun xs s = closeBlock
      { s with A := xorBytes s.A (placedAt s.pos.toNat xs), pos := s.pos + BitVec.ofNat 8 xs.length } := rfl

/-- A run that does not fill the block permutes nothing. -/
theorem absorbRun_of_lt {xs : List Byte} {s : State} (h : s.pos.toNat + xs.length < 136) :
    absorbRun xs s =
      { s with A := xorBytes s.A (placedAt s.pos.toNat xs), pos := s.pos + BitVec.ofNat 8 xs.length } := by
  refine closeBlock_of_lt ?_
  simp only [BitVec.toNat_add, BitVec.toNat_ofNat]
  omega

theorem absorbRun_nil {s : State} (hp : s.pos.toNat < 136) : absorbRun [] s = s := by
  have hA : xorBytes s.A (placedAt s.pos.toNat []) = s.A := lanes_ext_byteAt fun k => by simp [placedAt]
  rw [absorbRun_of_lt (by simpa using hp), hA]
  simp

theorem placedAt_append_singleton (start : Nat) (xs : List Byte) (d : Byte) (k : ByteIndex) :
    placedAt start (xs ++ [d]) k = if k.val = start + xs.length then d else placedAt start xs k := by
  rcases lt_trichotomy k.val (start + xs.length) with hlt | heq | hgt
  · rw [if_neg hlt.ne]
    by_cases hstart : start ≤ k.val
    · simp only [placedAt, if_pos hstart]
      exact List.getD_append _ _ _ _ (by omega)
    · simp only [placedAt, if_neg hstart]
  · simp [placedAt, heq]
  · simp only [placedAt, if_neg hgt.ne']
    rw [List.getD_eq_default _ _ (by simp; omega), List.getD_eq_default _ _ (by omega)]

/-- The byte after the placed ones is not touched. -/
theorem placedAt_end {start : Nat} {xs : List Byte} {k : ByteIndex} (hk : k.val = start + xs.length) :
    placedAt start xs k = 0 := by
  simp [placedAt, hk]

/-- One more byte at the end of the placed bytes is one byte XORed in, wherever they start. -/
theorem xorBytes_placedAt_append_at (A : Lanes) (start : Nat) (xs : List Byte) (d : Byte) {k : ByteIndex}
    (hk : k.val = start + xs.length) :
    xorBytes A (placedAt start (xs ++ [d])) = xorByte (xorBytes A (placedAt start xs)) k d := by
  apply lanes_ext_byteAt
  intro j
  simp only [byteAt_xorBytes, byteAt_xorByte, placedAt_append_singleton, Fin.ext_iff, hk]
  by_cases hj : j.val = start + xs.length
  · obtain rfl : j = k := Fin.ext (hj.trans hk.symm)
    simp [hj, placedAt_end hk]
  · simp only [if_neg hj]

/-- One more byte of a run is one ABSORB after it. -/
theorem absorbRun_append_singleton {xs : List Byte} {s : State} (h : s.pos.toNat + xs.length < 136) (d : Byte) :
    absorbRun (xs ++ [d]) s = absorbAt d ⟨s.pos.toNat + xs.length, h⟩ (absorbRun xs s) := by
  have hpos : s.pos + BitVec.ofNat 8 (xs ++ [d]).length = s.pos + BitVec.ofNat 8 xs.length + 1 := by
    rw [List.length_append, List.length_singleton, BitVec.ofNat_add, BitVec.add_assoc]
    rfl
  rw [absorbRun_of_lt h, absorbAt_eq_closeBlock, absorbRun_eq_closeBlock, hpos,
    xorBytes_placedAt_append_at _ _ _ _ (k := RateIndex.byte ⟨_, h⟩) rfl]

/-- R68: a run of bytes within the block is one ABSORB per byte. -/
theorem absorbBuf_eq_absorbRun (xs : List Byte) {s : State} (hl : s.live = true) (hp : s.pos.toNat < 136)
    (h : s.pos.toNat + xs.length ≤ 136) : absorbBuf xs s = .next (absorbRun xs s) := by
  induction xs using List.reverseRecOn with
  | nil => rw [absorbRun_nil hp, absorbBuf_nil]
  | append_singleton xs d ih =>
    rw [List.length_append, List.length_singleton] at h
    have hlt : s.pos.toNat + xs.length < 136 := by omega
    have hrun := ih hlt.le
    obtain ⟨t, ht, hlive, hpt⟩ := absorbBuf_live xs hl hp
    obtain rfl : absorbRun xs s = t := Host.Outcome.next.inj (hrun.symm.trans ht)
    rw [Nat.mod_eq_of_lt hlt] at hpt
    rw [absorbBuf_append ht, absorbBuf_cons hlive (hpt ▸ hlt), absorbBuf_nil, absorbRun_append_singleton hlt]
    simp only [hpt]

/-- R68's loop, run often enough, is one ABSORB per byte. -/
theorem absorbBuf_eq_absorbBlockwiseLoop (fuel : Nat) {bs : List Byte} (hfuel : bs.length ≤ fuel) {s : State}
    (hl : s.live = true) (hp : s.pos.toNat < 136) : absorbBuf bs s = .next (absorbBlockwiseLoop fuel bs s) := by
  induction fuel generalizing bs s with
  | zero =>
    obtain rfl := List.length_eq_zero_iff.mp (Nat.le_zero.mp hfuel)
    rfl
  | succ fuel ih =>
    cases bs with
    | nil => rfl
    | cons b bs =>
      rw [absorbBlockwiseLoop]
      generalize hk : min (136 - s.pos.toNat) (b :: bs).length = k
      have hpos : 0 < k := by rw [List.length_cons] at hk; omega
      have hrun := absorbBuf_eq_absorbRun ((b :: bs).take k) hl hp (by rw [List.length_take]; omega)
      obtain ⟨t, ht, hlt, hpt⟩ := absorbBuf_live ((b :: bs).take k) hl hp
      obtain rfl : absorbRun _ s = t := Host.Outcome.next.inj (hrun.symm.trans ht)
      have hrest : ((b :: bs).drop k).length ≤ fuel := by rw [List.length_drop]; omega
      rw [← ih hrest hlt (by omega), ← absorbBuf_append hrun, List.take_append_drop]

/-- Settles O10: the loop gets the buffer's length as fuel, and each round takes at least one byte. -/
theorem blockwiseAbsorbAgrees : Obligations.BlockwiseAbsorbAgrees :=
  fun bs _ hl hp => absorbBuf_eq_absorbBlockwiseLoop bs.length le_rfl hl hp

end Sys2Proof.Machine

/-! ### Counting permutations (R72, R145) -/

namespace Sys2Proof.Machine

theorem permutationCount_cons {i : Instr} {s t : State} (h : exec i s = .next t) (is : List Instr) :
    permutationCount (i :: is) s = permutationsIn i s + permutationCount is t := by
  simp only [permutationCount, h]

theorem permutationCount_append {is : List Instr} {s u : State} (h : execAll is s = .next u) (js : List Instr) :
    permutationCount (is ++ js) s = permutationCount is s + permutationCount js u := by
  induction is generalizing s with
  | nil => cases h; simp [permutationCount]
  | cons i is ih =>
    cases hi : exec i s with
    | next t =>
      rw [execAll, hi] at h
      rw [List.cons_append, permutationCount_cons hi, permutationCount_cons hi, ih h, Nat.add_assoc]
    | fault f => rw [execAll, hi] at h; cases h
    | refused r => rw [execAll, hi] at h; cases h

theorem permutationsIn_absorb_live {s : State} (hl : s.live = true) (d : Byte) :
    permutationsIn (.absorb d) s = if s.pos.toNat = 135 then 1 else 0 := by
  simp only [permutationsIn, hl, true_and]
  exact if_congr pos_eq_last_iff rfl rfl

theorem permutationsIn_digest_live {s : State} (hl : s.live = true) (m : Mode) :
    permutationsIn (digestInstr m) s = 1 := by
  cases m <;> simp [digestInstr, permutationsIn, hl]

/-- R72: a buffer runs one permutation for each block it fills. -/
theorem permutationCount_absorbs (bs : List Byte) {s : State} (hl : s.live = true) (hp : s.pos.toNat < 136) :
    permutationCount (bs.map .absorb) s = (s.pos.toNat + bs.length) / 136 := by
  induction bs generalizing s with
  | nil => exact (Nat.div_eq_of_lt hp).symm
  | cons d bs ih =>
    have hs := exec_absorb_live hl hp d
    rw [List.map_cons, permutationCount_cons hs, ih (by simpa using hl) (exec_keeps_cursor hp hs),
      permutationsIn_absorb_live hl, absorbAt_cursor_pos_toNat, List.length_cons]
    split <;> omega

/-- Settles O11: the cursor counts the bytes of the open block, and DIGEST runs one permutation of its own. -/
theorem absorbedLengthGivesCursorAndPermutations : Obligations.AbsorbedLengthGivesCursorAndPermutations := by
  constructor
  · intro bs s hl hp
    obtain ⟨t, ht, -, hpt⟩ := absorbBuf_live bs hl hp
    exact ⟨permutationCount_absorbs bs hl hp, t, ht, hpt⟩
  · intro bs m s
    have hcursor : (clearContext true s).pos.toNat = 0 := rfl
    obtain ⟨t, ht, hlt, hpt⟩ := absorbBuf_live bs (s := clearContext true s) rfl (by omega)
    obtain ⟨u, hu⟩ := exec_completes (s := t) (by omega) (digestInstr m)
    rw [permutationCount_cons (exec_init s), permutationCount_append ht, permutationCount_cons hu,
      permutationCount_absorbs bs rfl (by omega), permutationsIn_digest_live hlt, hcursor]
    simp [permutationsIn, permutationCount]

end Sys2Proof.Machine

/-! ### The message a live engine represents, along a buffer and a DIGEST (R67, R73, R81) -/

namespace Sys2Proof.Machine

/-- R73: absorbing a buffer takes the state of `M` to the state of `M` with the buffer added. -/
theorem absorbBuf_represents (bs : List Byte) {s : State} {M : List Byte} (hl : s.live = true) (hM : s.Represents M) :
    ∃ t, absorbBuf bs s = .next t ∧ t.live = true ∧ t.Represents (M ++ bs) := by
  induction bs generalizing s M with
  | nil => exact ⟨s, rfl, hl, by rwa [List.append_nil]⟩
  | cons d bs ih =>
    have hp := cursor_of_represents hM
    obtain ⟨t, ht, hlt, hMt⟩ := ih (by simpa using hl) (absorbAt_represents hM hp d)
    exact ⟨t, (absorbBuf_cons hl hp d bs).trans ht, hlt, by rwa [List.append_assoc] at hMt⟩

/-- R73: whole blocks leave no open block. -/
theorem absorbedLanes_of_whole_blocks {M : List Byte} (h : M.length % 136 = 0) :
    absorbedLanes M = blockState M (M.length / 136) := by
  have hopen : openBlock M = [] := List.length_eq_zero_iff.mp ((openBlock_length M).trans h)
  rw [absorbedLanes_eq, hopen, xorBytes_placedAt_nil]

/-- Settles O12: INIT represents the empty message, and the chunks are absorbed as their concatenation. -/
theorem absorbedStateHasTheClosedForm : Obligations.AbsorbedStateHasTheClosedForm := by
  intro s cs
  have hM : (clearContext true s).Represents [] := ⟨absorbedLanes_nil.symm, rfl⟩
  obtain ⟨u, hu, -, hA, hpos⟩ := absorbBuf_represents cs.flatten (s := clearContext true s) rfl hM
  rw [List.nil_append] at hA hpos
  refine ⟨_, u, exec_init s, (absorbChunks_eq_absorbBuf_flatten cs _).trans hu, hA, hpos, fun hwhole => ⟨?_, ?_⟩⟩
  · rw [hA, absorbedLanes_of_whole_blocks hwhole]
  · exact BitVec.eq_of_toNat_eq (hpos.trans hwhole)

@[simp] theorem messageOf_absorbs (bs : List Byte) : messageOf (bs.map .absorb) = bs := by
  induction bs with
  | nil => rfl
  | cons d bs ih => rw [List.map_cons, messageOf, ih]

/-- R28: the ghost message grows by the buffer absorbed. -/
theorem messageAfterAll_absorbs (xs : List Byte) {s : State} (hl : s.live = true) (hp : s.pos.toNat < 136)
    (bs : List Byte) : messageAfterAll (xs.map .absorb) s (some bs) = some (bs ++ xs) := by
  obtain ⟨_, _, _, hM⟩ := execAll_hash_live (xs.map .absorb) (by simp) s hl hp bs
  rw [hM, messageOf_absorbs]

/-- R81, R88: DIGEST delivers the digest of the message the state represents, and the state still represents it. -/
theorem exec_digest_represents {s : State} {M : List Byte} (hl : s.live = true) (hM : s.Represents M) (m : Mode) :
    ∃ t, exec (digestInstr m) s = .next t ∧ t.live = true ∧ t.Represents M ∧
      t.dout = digestOfMessage M m ∧ t.dvalid = true :=
  ⟨_, exec_digest_live hl (cursor_of_represents hM) m, hl, hM, digestAt_dout_eq hM _ m, rfl⟩

/-- Settles O53: DIGEST leaves the message the engine represents, and ABSORB adds to it. -/
theorem digestReturnsTheDigestOfTheMessage : Obligations.DigestReturnsTheDigestOfTheMessage := by
  intro s bs xs m m' hl hM
  obtain ⟨t, ht, hlt, hMt, hdt, hvt⟩ := exec_digest_represents hl hM m
  obtain ⟨u, hu, hlu, hMu⟩ := absorbBuf_represents xs hlt hMt
  obtain ⟨v, hv, -, -, hdv, -⟩ := exec_digest_represents hlu hMu m'
  exact ⟨t, u, v, ht, hdt, hvt, hMt, messageAfter_digest m s _, hu, hMu,
    messageAfterAll_absorbs xs hlt (cursor_of_represents hMt) bs, hv, hdv⟩

end Sys2Proof.Machine

/-! ### DIGEST: the padded copy, byte by byte (R75 to R78) -/

namespace Sys2Proof.Machine

/-- One byte XORed in, read at any byte of the bank. -/
theorem byteAt_xorByte_eq_xor (A : Lanes) (k j : ByteIndex) (v : Byte) :
    byteAt (xorByte A k v) j = byteAt A j ^^^ (if j.val = k.val then v else 0) := by
  by_cases h : j = k
  · simp [h]
  · simp [h, Fin.val_ne_of_ne h]

/-- R75 lines 3 and 4, read at any byte of the copy. -/
theorem byteAt_padScratch_TA (m : Mode) (r : RateIndex) (s : State) (k : ByteIndex) :
    byteAt (padScratch m r s).TA k =
      byteAt s.TA k ^^^ (if k.val = r.val then padByte m else 0) ^^^ (if k.val = 135 then padFinal else 0) := by
  rw [padScratch_TA, byteAt_xorByte_eq_xor, byteAt_xorByte_eq_xor]
  rfl

/-- R77: the padding leaves the bytes below the cursor and the capacity. -/
theorem byteAt_padScratch_TA_of_outside (m : Mode) {r : RateIndex} (s : State) {k : ByteIndex}
    (hk : k.val < r.val ∨ 136 ≤ k.val) : byteAt (padScratch m r s).TA k = byteAt s.TA k := by
  have hr := r.isLt
  have hcursor : k.val ≠ r.val := by omega
  have hlast : k.val ≠ 135 := by omega
  rw [byteAt_padScratch_TA, if_neg hcursor, if_neg hlast]
  exact BitVec.xor_zero.trans BitVec.xor_zero

/-- R83: the digest is the first 32 bytes of the bank. -/
theorem getElem_digestOf (X : Lanes) (k : Fin 32) : (digestOf X)[k] = byteAt X ⟨k.val, by omega⟩ := by
  simp [digestOf]

/-- Settles O13: the words are the two modes' commands, and a live DIGEST is `digestAt`, whose copy is known byte by
byte. -/
theorem digestDeliversThePermutedPaddedCopy : Obligations.DigestDeliversThePermutedPaddedCopy := by
  refine ⟨decode_encode .digestSha3, decode_encode .digestKeccak, fun s m hl hp => ?_,
    fun s m hl => exec_digest_dead hl m⟩
  refine ⟨_, _, byteAt_padScratch_TA m ⟨s.pos.toNat, hp⟩ (copyToScratch s), getElem_digestOf _, ?_⟩
  rw [exec_digest_live hl hp, digestAt_eq]
  rfl

/-- Settles O14: the two bytes XORed in are the block, and at cursor 135 they fall on one byte. -/
theorem paddingIsTheBlockXoredIn : Obligations.PaddingIsTheBlockXoredIn := by
  refine ⟨fun s m r => ⟨?_, fun k hk => byteAt_padScratch_TA_of_outside m s hk⟩, fun s m r hr => ?_⟩
  · exact xorByte_xorByte_padByte s.TA r m
  · rw [byteAt_padScratch_TA, if_pos hr.symm, if_pos rfl, BitVec.xor_assoc]
    cases m <;> rfl

end Sys2Proof.Machine

/-! ### DIGEST leaves the context, and is of the whole message (R80 to R82) -/

namespace Sys2Proof.Machine

/-- R82: a DIGEST reads nothing that an earlier DIGEST wrote. -/
theorem digestAt_digestAt (m m' : Mode) (r r' : RateIndex) (s : State) :
    digestAt m' r' (digestAt m r s) = digestAt m' r' s := by
  simp only [digestAt_eq]

/-- R80: DIGEST writes `DOUT`, `DVALID`, `TA` and `rnd` only. -/
theorem digestAt_frame (m : Mode) (r : RateIndex) (s : State) :
    digestAt m r s =
      { s with
        dout := (digestAt m r s).dout, dvalid := (digestAt m r s).dvalid, TA := (digestAt m r s).TA,
        rnd := (digestAt m r s).rnd } := rfl

/-- Settles O15: DIGEST is refused or is `digestAt`, whose frame is known and which a DIGEST before it does not change. -/
theorem digestIsNonDestructiveAndRepeatable : Obligations.DigestIsNonDestructiveAndRepeatable := by
  refine ⟨fun s t m h => ?_, fun s m m' hl hp => ⟨_, exec_digest_live hl hp m, ?_⟩⟩
  · obtain ⟨hl, rfl⟩ | ⟨-, hp, rfl⟩ := exec_digest_next h
    · exact ⟨rfl, by simp [hl]⟩
    · exact ⟨digestAt_frame m _ s, fun _ => digestAt_uaw m _ s⟩
  · calc
      exec (digestInstr m') (digestAt m ⟨s.pos.toNat, hp⟩ s)
        = .next (digestAt m' ⟨s.pos.toNat, hp⟩ (digestAt m ⟨s.pos.toNat, hp⟩ s)) :=
          exec_digest_live (s := digestAt m ⟨s.pos.toNat, hp⟩ s) hl hp m'
      _ = .next (digestAt m' ⟨s.pos.toNat, hp⟩ s) := by rw [digestAt_digestAt]
      _ = exec (digestInstr m') s := (exec_digest_live hl hp m').symm

/-- R81: a hash command takes the state of `M` to the state of `M` with an ABSORB's byte added. -/
theorem exec_hash_represents {s : State} {M : List Byte} (hl : s.live = true) (hM : s.Represents M) {i : Instr}
    (hi : (∃ d, i = .absorb d) ∨ ∃ m, i = digestInstr m) :
    ∃ t, exec i s = .next t ∧ t.live = true ∧ t.Represents (M ++ messageOf [i]) := by
  have hp := cursor_of_represents hM
  rcases hi with ⟨d, rfl⟩ | ⟨m, rfl⟩
  · exact ⟨_, exec_absorb_live hl hp d, (absorbAt_live ..).trans hl, absorbAt_represents hM hp d⟩
  · refine ⟨_, exec_digest_live hl hp m, hl, ?_⟩
    rw [messageOf_digest, messageOf, List.append_nil]
    exact hM

/-- R81: ABSORB and DIGEST commands in any order take the state of `M` to the state of `M` with the absorbed bytes
added. -/
theorem execAll_hash_represents (is : List Instr) (his : ∀ i ∈ is, (∃ d, i = .absorb d) ∨ ∃ m, i = digestInstr m)
    {s : State} {M : List Byte} (hl : s.live = true) (hM : s.Represents M) :
    ∃ t, execAll is s = .next t ∧ t.live = true ∧ t.Represents (M ++ messageOf is) := by
  induction is generalizing s M with
  | nil => exact ⟨s, rfl, hl, by rwa [messageOf, List.append_nil]⟩
  | cons i is ih =>
    obtain ⟨hi, hrest⟩ := List.forall_mem_cons.mp his
    obtain ⟨u, hu, hlu, hMu⟩ := exec_hash_represents hl hM hi
    obtain ⟨t, ht, hlt, hMt⟩ := ih hrest hlu hMu
    refine ⟨t, by rw [execAll, hu]; exact ht, hlt, ?_⟩
    rwa [messageOf_cons, ← List.append_assoc]

/-- R63, R73: INIT makes the state of the empty message. -/
theorem clearContext_represents_nil (l : Bool) (s : State) : (clearContext l s).Represents [] :=
  ⟨absorbedLanes_nil.symm, rfl⟩

/-- Settles O16: INIT represents the empty message, the commands add what they absorb, and DIGEST delivers the digest of
what the state represents. -/
theorem digestIsOfTheWholeMessage : Obligations.DigestIsOfTheWholeMessage := by
  intro s is m his
  obtain ⟨t, ht, hlt, hM⟩ := execAll_hash_represents is his (s := clearContext true s) rfl
    (clearContext_represents_nil true s)
  have hp := cursor_of_represents hM
  exact ⟨t, _, ht, exec_digest_live hlt hp m, digestAt_dout_eq hM hp m, rfl, rfl, rfl⟩

/-- Settles O45: the invariant bounds the cursor, and with the cursor in its range no step stops. -/
theorem invariantStatesNeverStop : Obligations.InvariantStatesNeverStop :=
  fun _ hs => step_completes hs.cursor

end Sys2Proof.Machine

/-! ### The padded message as whole blocks (R77, R78, R88) -/

namespace Sys2Proof.Machine

/-- The bytes that pad a message whose open block holds `r` bytes (R88). -/
def paddingBytes (r : Nat) (p : Byte) : List Byte :=
  if r = 135 then [p ||| padFinal] else p :: (List.replicate (134 - r) 0x00 ++ [padFinal])

theorem paddedMessage_eq_append (M : List Byte) (m : Mode) :
    paddedMessage M m = M ++ paddingBytes (M.length % 136) (padByte m) := by
  unfold paddedMessage paddingBytes
  split
  · rfl
  · rfl

/-- R88: the padding fills the open block. -/
theorem paddingBytes_length {r : Nat} (hr : r < 136) (p : Byte) : (paddingBytes r p).length = 136 - r := by
  unfold paddingBytes
  split
  · simp; omega
  · simp; omega

/-- Bytes placed one list after the other. -/
theorem placedAt_append (start : Nat) (xs ys : List Byte) (k : ByteIndex) :
    placedAt start (xs ++ ys) k = placedAt start xs k ^^^ placedAt (start + xs.length) ys k := by
  simp only [placedAt]
  by_cases hend : start + xs.length ≤ k.val
  · have hstart : start ≤ k.val := by omega
    rw [if_pos hstart, if_pos hstart, if_pos hend, List.getD_append_right _ _ _ _ (by omega),
      List.getD_eq_default xs _ (by omega), Nat.sub_add_eq]
    simp
  · rw [if_neg hend, show ∀ b : Byte, b ^^^ 0 = b from fun _ => BitVec.xor_zero]
    split_ifs
    · exact List.getD_append _ _ _ _ (by omega)
    · rfl

theorem placedAt_singleton (start : Nat) (d : Byte) (k : ByteIndex) :
    placedAt start [d] k = if k.val = start then d else 0 := by
  have h := placedAt_append_singleton start [] d k
  simpa [placedAt] using h

theorem placedAt_zeros (start n : Nat) (k : ByteIndex) : placedAt start (List.replicate n 0x00) k = 0 := by
  simp only [placedAt]
  split_ifs
  · rcases lt_or_ge (k.val - start) n with hlt | hge
    · exact List.getD_replicate _ hlt
    · exact List.getD_eq_default _ _ (by rwa [List.length_replicate])
  · rfl

/-- R77: the padding bytes, placed from the cursor on, are the padding block. -/
theorem placedAt_paddingBytes {r : Nat} (hr : r < 136) (p : Byte) : placedAt r (paddingBytes r p) = padBlock r p := by
  funext k
  by_cases hlast : r = 135
  · subst hlast
    rw [paddingBytes, if_pos rfl, placedAt_singleton]
    by_cases hk : k.val = 135
    · simp [padBlock, hk]
    · simp [padBlock, hk]
  · have hend : r + 1 + (134 - r) = 135 := by omega
    rw [paddingBytes, if_neg hlast, ← List.singleton_append, placedAt_append, placedAt_append, placedAt_singleton,
      placedAt_zeros, placedAt_singleton, List.length_singleton, List.length_replicate, hend]
    by_cases hk : k.val = r
    · simp [padBlock, hk, hlast]
    · simp [padBlock, hk]

/-- Bytes XORed in one list after the other. -/
theorem xorBytes_placedAt_append_list (A : Lanes) (start : Nat) (xs ys : List Byte) :
    xorBytes A (placedAt start (xs ++ ys)) =
      xorBytes (xorBytes A (placedAt start xs)) (placedAt (start + xs.length) ys) := by
  apply lanes_ext_byteAt
  intro k
  simp only [byteAt_xorBytes, placedAt_append, BitVec.xor_assoc]

/-- The block that bytes after the message fill up. -/
theorem messageBlock_append_fill {M ys : List Byte} (h : M.length % 136 + ys.length = 136) :
    messageBlock (M ++ ys) (M.length / 136) = openBlock M ++ ys := by
  rw [messageBlock, List.drop_append_of_le_length (by omega)]
  exact List.take_of_length_le (by rw [List.length_append, List.length_drop]; omega)

/-- Settles O17: the padding fills the open block, so the last block of the sponge is the open block and the padding
block. -/
theorem digestIsTheSpongeOfThePaddedMessage : Obligations.DigestIsTheSpongeOfThePaddedMessage := by
  intro M m
  have hr : M.length % 136 < 136 := by omega
  have hlen := paddingBytes_length hr (padByte m)
  rw [paddedMessage_eq_append]
  refine ⟨by rw [List.length_append, hlen]; omega, ?_⟩
  rw [blockState, blockState_append _ _ _ le_rfl, messageBlock_append_fill (by omega), xorBytes_placedAt_append_list,
    openBlock_length, Nat.zero_add, placedAt_paddingBytes hr, ← absorbedLanes_eq]
  rfl

end Sys2Proof.Machine

/-! ### No two banks have the same permutation (R105) -/

namespace Sys2Proof.Machine

theorem rol64_eq_rotateLeft (v : Lane) (n : Fin 64) : rol64 v n.val = v.rotateLeft n.val := by
  rw [rol64, BitVec.rotateLeft_def, Nat.mod_eq_of_lt n.isLt]
  split
  case isTrue h => simp [h, BitVec.ushiftRight_eq_zero]
  case isFalse => rfl

/-- R9: rotation by `n` moves bit `z` to bit `z + n`. -/
theorem getLsbD_rol64 (v : Lane) (n z : Fin 64) : (rol64 v n.val).getLsbD z.val = v.getLsbD (z - n).val := by
  have hz := z.isLt
  have hn := n.isLt
  rw [rol64_eq_rotateLeft, BitVec.getLsbD_rotateLeft, Nat.mod_eq_of_lt hn, Fin.sub_def]
  by_cases h : z.val < n.val
  · have hbit : (64 - n.val + z.val) % 64 = 64 - n.val + z.val := by omega
    simp [h, hbit]
  · have hbit : (64 - n.val + z.val) % 64 = z.val - n.val := by omega
    simp [h, hbit]

theorem rol64_injective (n : Fin 64) : Function.Injective fun v : Lane => rol64 v n.val := by
  intro v w h
  refine BitVec.eq_of_getLsbD_eq fun b hb => ?_
  have hbit := congrArg (fun u : Lane => u.getLsbD (⟨b, hb⟩ + n : Fin 64).val) h
  simpa only [getLsbD_rol64, add_sub_cancel_right] using hbit

theorem rhoOffset_lt (x y : Fin 5) : rhoOffset x y < 64 := by
  revert x y
  decide

theorem rho_injective : Function.Injective rho := by
  intro A B h
  refine lanes_ext_laneAt fun x y => ?_
  have hlane := congrArg (laneAt · x y) h
  simp only [rho, laneAt_lanesOf] at hlane
  exact rol64_injective ⟨_, rhoOffset_lt x y⟩ hlane

/-- R100, inverse form. -/
theorem laneAt_piMap_inverse (A : Lanes) (x y : Fin 5) : laneAt (piMap A) y (2 * x + 3 * y) = laneAt A x y := by
  have hx : ∀ x y : Fin 5, y + 3 * (2 * x + 3 * y) = x := by decide
  rw [piMap, laneAt_lanesOf, hx]

theorem piMap_injective : Function.Injective piMap := by
  intro A B h
  refine lanes_ext_laneAt fun x y => ?_
  rw [← laneAt_piMap_inverse A, h, laneAt_piMap_inverse]

/-- R101 on one row of five bits. -/
def chiRow (r : Fin 5 → Bool) (x : Fin 5) : Bool := r x ^^ (!r (x + 1) && r (x + 2))

/-- The inverse of `chiRow`. -/
def chiRowInverse (r : Fin 5 → Bool) (x : Fin 5) : Bool :=
  r x ^^ (!r (x + 1) && (r (x + 2) ^^ (!r (x + 3) && r (x + 4))))

theorem chiRowInverse_chiRow : Function.LeftInverse chiRowInverse chiRow := by
  unfold Function.LeftInverse
  decide

theorem getLsbD_laneAt_chi (A : Lanes) (x y : Fin 5) {b : Nat} (hb : b < 64) :
    (laneAt (chi A) x y).getLsbD b = chiRow (fun x => (laneAt A x y).getLsbD b) x := by
  simp [chi, chiRow, hb]

theorem chi_injective : Function.Injective chi := by
  intro A B h
  refine lanes_ext_laneAt fun x y => BitVec.eq_of_getLsbD_eq fun b hb => ?_
  have hrow : chiRow (fun x => (laneAt A x y).getLsbD b) = chiRow fun x => (laneAt B x y).getLsbD b := by
    funext x
    rw [← getLsbD_laneAt_chi A x y hb, h, getLsbD_laneAt_chi B x y hb]
  exact congrFun (chiRowInverse_chiRow.injective hrow) x

theorem iota_iota (A : Lanes) (i : Fin 24) : iota (iota A i) i = A := by
  simp [iota]

theorem iota_injective (i : Fin 24) : Function.Injective fun A => iota A i :=
  Function.LeftInverse.injective (g := fun A => iota A i) fun A => iota_iota A i

/-! Theta adds to each bit two column parities, so it is the map it induces on the parities that has to be inverted. As a
polynomial over the two-element field that map has three terms; its square has the squares of the three, and its 64th
power rotates no lane any more. -/

/-- A bit plus its two neighbours at the distances `a` and `b`. -/
def addNeighbours {G : Type} [AddCommGroup G] (a b : G) (f : G → Bool) (g : G) : Bool := f g ^^ f (g + a) ^^ f (g + b)

section
variable {G : Type} [AddCommGroup G]

/-- The square of a sum of three terms, modulo 2. -/
theorem addNeighbours_addNeighbours (a b : G) (f : G → Bool) :
    addNeighbours a b (addNeighbours a b f) = addNeighbours (a + a) (b + b) f := by
  funext g
  simp only [addNeighbours, ← add_assoc, add_right_comm g b a]
  generalize f g = b₀, f (g + a) = b₁, f (g + b) = b₂, f (g + a + b) = b₃, f (g + a + a) = b₄, f (g + b + b) = b₅
  revert b₀ b₁ b₂ b₃ b₄ b₅
  decide

theorem addNeighbours_injective_of_pow (n : Nat) {a b : G}
    (h : Function.Injective (addNeighbours (2 ^ n • a) (2 ^ n • b))) : Function.Injective (addNeighbours a b) := by
  induction n generalizing a b with
  | zero => simpa using h
  | succ n ih =>
    have hdouble : Function.Injective (addNeighbours (a + a) (b + b)) := by
      apply ih
      simpa only [pow_succ, mul_nsmul', two_nsmul] using h
    intro f g hfg
    apply hdouble
    rw [← addNeighbours_addNeighbours, hfg, addNeighbours_addNeighbours]

end

/-- Modulo `x^5 + 1` the sums `1 + x + x^4` and `1 + x^2 + x^3` are inverse to each other. -/
theorem addNeighbours_columns_inverse (f : Fin 5 × Fin 64 → Bool) :
    addNeighbours (2, 0) (3, 0) (addNeighbours (1, 0) (4, 0) f) = f := by
  funext g
  obtain ⟨h21, h24, h31, h34⟩ :
      (2 + 1 : Fin 5) = 3 ∧ (2 + 4 : Fin 5) = 1 ∧ (3 + 1 : Fin 5) = 4 ∧ (3 + 4 : Fin 5) = 2 := by decide
  simp only [addNeighbours, add_assoc, Prod.mk_add_mk, add_zero, h21, h24, h31, h34]
  generalize f g = b₀, f (g + (1, 0)) = b₁, f (g + (2, 0)) = b₂, f (g + (3, 0)) = b₃, f (g + (4, 0)) = b₄
  revert b₀ b₁ b₂ b₃ b₄
  decide

/-- R98 on the column parities. -/
theorem addNeighbours_theta_injective : Function.Injective (addNeighbours ((4, 0) : Fin 5 × Fin 64) (1, -1)) := by
  apply addNeighbours_injective_of_pow 6
  exact Function.LeftInverse.injective addNeighbours_columns_inverse

theorem laneAt_theta (A : Lanes) (x y : Fin 5) : laneAt (theta A) x y = laneAt A x y ^^^ thetaEffect A x := by
  rw [theta, laneAt_lanesOf]

theorem xor_xor_xor_cancel {w : Nat} (u v t : BitVec w) : (u ^^^ t) ^^^ (v ^^^ t) = u ^^^ v := by
  rw [BitVec.xor_comm v t, BitVec.xor_assoc, ← BitVec.xor_assoc t t v, BitVec.xor_self, BitVec.zero_xor]

/-- R98: the effect enters a column's parity five times. -/
theorem columnParity_theta (A : Lanes) (x : Fin 5) : columnParity (theta A) x = columnParity A x ^^^ thetaEffect A x := by
  simp only [columnParity, laneAt_theta]
  rw [xor_xor_xor_cancel, ← BitVec.xor_assoc _ (laneAt A x 2), xor_xor_xor_cancel, ← BitVec.xor_assoc _ (laneAt A x 4)]

/-- The column parities bit by bit. -/
def parityBit (A : Lanes) (g : Fin 5 × Fin 64) : Bool := (columnParity A g.1).getLsbD g.2.val

theorem parityBit_theta (A : Lanes) : parityBit (theta A) = addNeighbours (4, 0) (1, -1) (parityBit A) := by
  funext ⟨x, z⟩
  have hrol := getLsbD_rol64 (columnParity A (x + 1)) 1 z
  simp only [parityBit, columnParity_theta, thetaEffect, addNeighbours, BitVec.getLsbD_xor, Prod.mk_add_mk, add_zero,
    ← sub_eq_add_neg, ← hrol, Bool.xor_assoc]
  rfl

theorem thetaEffect_congr {A B : Lanes} (h : parityBit A = parityBit B) : thetaEffect A = thetaEffect B := by
  have hparity : columnParity A = columnParity B := by
    funext x
    exact BitVec.eq_of_getLsbD_eq fun b hb => congrFun h (x, ⟨b, hb⟩)
  funext x
  rw [thetaEffect, hparity, thetaEffect]

theorem theta_injective : Function.Injective theta := by
  intro A B h
  have hparity : parityBit A = parityBit B := by
    apply addNeighbours_theta_injective
    rw [← parityBit_theta, h, parityBit_theta]
  refine lanes_ext_laneAt fun x y => ?_
  have hlane := congrArg (laneAt · x y) h
  simp only [laneAt_theta, thetaEffect_congr hparity] at hlane
  exact (BitVec.xor_left_inj _).mp hlane

theorem keccakRound_injective (i : Fin 24) : Function.Injective fun A => keccakRound A i := by
  have hround : (fun A => keccakRound A i) = (fun A => iota A i) ∘ chi ∘ piMap ∘ rho ∘ theta := by
    funext A
    rw [keccakRound]
    rfl
  rw [hround]
  exact (iota_injective i).comp (chi_injective.comp (piMap_injective.comp (rho_injective.comp theta_injective)))

theorem foldl_keccakRound_injective (is : List (Fin 24)) : Function.Injective fun A => is.foldl keccakRound A := by
  induction is with
  | nil => exact Function.injective_id
  | cons i is ih => exact ih.comp (keccakRound_injective i)

/-- R105: no two banks have the same permutation. -/
theorem keccakF_injective : Function.Injective keccakF := by
  have hF : keccakF = fun A => (List.finRange 24).foldl keccakRound A := by
    funext A
    rw [keccakF]
  rw [hF]
  exact foldl_keccakRound_injective _

end Sys2Proof.Machine

/-! ### The two modes permute different copies (R86) -/

namespace Sys2Proof.Machine

/-- R86: the two first padding bytes differ, by 0x07, and nothing else does. -/
theorem byteAt_padScratch_modes (r : RateIndex) (s : State) (k : ByteIndex) :
    byteAt (padScratch .standard r s).TA k ^^^ byteAt (padScratch .legacyKeccak r s).TA k =
      if k.val = r.val then 0x07#8 else 0x00#8 := by
  rw [byteAt_padScratch_TA, byteAt_padScratch_TA, xor_xor_xor_cancel, BitVec.xor_comm (byteAt s.TA k),
    BitVec.xor_comm (byteAt s.TA k), xor_xor_xor_cancel]
  split
  · rfl
  · rfl

/-- Settles O18: the copies differ at the cursor, and the permutation maps no two banks to one. -/
theorem theModesPermuteDifferentCopies : Obligations.TheModesPermuteDifferentCopies := by
  refine fun s r => ⟨byteAt_padScratch_modes r s, fun h => ?_⟩
  have hbyte := byteAt_padScratch_modes r s r.byte
  rw [keccakF_injective h, BitVec.xor_self, rateIndex_byte_val, if_pos rfl] at hbyte
  exact absurd hbyte (by decide)

end Sys2Proof.Machine

/-! ### WIPE zeroes the context, and what may follow it (R91, R92, R93) -/

namespace Sys2Proof.Machine

/-- R91: a wiped engine is the reset one but for the sticky flags and the host's side. -/
theorem clearContext_false_eq_reset_with (s : State) :
    clearContext false s =
      { State.reset with ill := s.ill, uaw := s.uaw, script := s.script, responses := s.responses } := rfl

/-- R92: WIPE finds a wiped context zero and leaves it zero. -/
theorem exec_wipe_wiped (s : State) : exec .wipe (clearContext false s) = .next (clearContext false s) := by
  rw [exec_wipe, clearContext_clearContext]

/-- R93: INIT on a wiped engine starts a context, and all it has to write is `LIVE`. -/
theorem exec_init_wiped (s : State) :
    exec .init (clearContext false s) = .next { clearContext false s with live := true } := by
  rw [exec_init, clearContext_clearContext]
  rfl

/-- Settles O4: the word is WIPE's, and WIPE answers the cleared context with `LIVE` zero, read field by field and as the
reset state; clearing it again changes nothing. -/
theorem wipeZeroesTheContextAndIsIdempotent : Obligations.WipeZeroesTheContextAndIsIdempotent := by
  refine ⟨decode_encode .wipe, fun s => ⟨_, exec_wipe s, ?_⟩⟩
  exact ⟨clearContext_A .., clearContext_pos .., clearContext_TA .., clearContext_dout .., clearContext_dvalid ..,
    clearContext_live .., clearContext_rnd .., clearContext_ill .., clearContext_uaw .., clearContext_script ..,
    clearContext_responses .., clearContext_false_eq_reset_with s, exec_wipe_wiped s⟩

/-- Settles O6: a wiped engine is cleared already, so only INIT's `LIVE` is new, and it is not live, so the hash commands
are refused. -/
theorem wipedContextIsGoneButTheEngineIsNot : Obligations.WipedContextIsGoneButTheEngineIsNot := by
  intro s
  have hdead : (clearContext false s).live = false := clearContext_live false s
  exact ⟨_, exec_wipe s, hdead, exec_wipe_wiped s, exec_init_wiped s, exec_absorb_dead hdead, exec_digest_dead hdead⟩

end Sys2Proof.Machine

/-! ### The permutation, step by step (R98 to R102) -/

namespace Sys2Proof.Machine

@[simp] theorem laneAt_replicate (v : Lane) (x y : Fin 5) : laneAt (Vector.replicate 25 v) x y = v := by
  simp [laneAt]

/-- R98: the effect on a column is the parity to its left and the rotated parity to its right. -/
theorem thetaEffect_eq_rotateLeft (A : Lanes) (x : Fin 5) :
    thetaEffect A x = columnParity A (x + 4) ^^^ (columnParity A (x + 1)).rotateLeft 1 :=
  congrArg (columnParity A (x + 4) ^^^ ·) (rol64_eq_rotateLeft _ 1)

/-- Five equal lanes have the parity of one. -/
theorem columnParity_replicate (v : Lane) (x : Fin 5) : columnParity (Vector.replicate 25 v) x = v := by
  simp [columnParity]

/-- Theta fixes a bank of equal lanes whose lane the rotation by one bit fixes: the two parities cancel. -/
theorem theta_replicate {v : Lane} (hv : v.rotateLeft 1 = v) :
    theta (Vector.replicate 25 v) = Vector.replicate 25 v := by
  refine lanes_ext_laneAt fun x y => ?_
  rw [laneAt_theta, thetaEffect_eq_rotateLeft, columnParity_replicate, columnParity_replicate, hv, BitVec.xor_self,
    BitVec.xor_zero]

/-- Settles O19: theta adds the effect to each lane, and the zero and the all-ones lane are their own rotations. -/
theorem thetaFollowsItsFormula : Obligations.ThetaFollowsItsFormula := by
  refine ⟨fun A x y => ?_, theta_replicate (by decide), theta_replicate (by decide)⟩
  rw [laneAt_theta, thetaEffect_eq_rotateLeft, columnParity, columnParity]

/-- R99: each lane is rotated by its offset. -/
theorem laneAt_rho (A : Lanes) (x y : Fin 5) : laneAt (rho A) x y = (laneAt A x y).rotateLeft (rhoOffset x y) := by
  rw [rho, laneAt_lanesOf]
  exact rol64_eq_rotateLeft _ ⟨_, rhoOffset_lt x y⟩

/-- R100, on flat indices: lane `[x,y]` of the image, of index `j = x + 5*y`, is lane `[x+3*y, x]` of the bank. -/
def piSource (j : Fin 25) : Fin 25 :=
  let x : Fin 5 := ⟨j.val % 5, by omega⟩
  let y : Fin 5 := ⟨j.val / 5, by omega⟩
  ⟨(x + 3 * y).val + 5 * x.val, by omega⟩

theorem getElem_piMap (A : Lanes) (j : Fin 25) : (piMap A)[j] = A[piSource j] := Vector.getElem_ofFn j.isLt

/-- R100, on flat indices: where pi moves the lane of index `i`, as R100 prints it. -/
def piTarget (i : Fin 25) : Fin 25 :=
  (#v[0, 10, 20, 5, 15, 16, 1, 11, 21, 6, 7, 17, 2, 12, 22, 23, 8, 18, 3, 13, 14, 24, 9, 19, 4] : Vector (Fin 25) 25)[i]

theorem piSource_piTarget : ∀ i, piSource (piTarget i) = i := by decide

theorem getElem_piMap_piTarget (A : Lanes) (i : Fin 25) : (piMap A)[piTarget i] = A[i] := by
  simp only [getElem_piMap, piSource_piTarget]

/-- R100: the 24 lanes other than `[0,0]` form one cycle, here from lane `[1,0]`. -/
theorem piTarget_cycle : piTarget^[24] 1 = 1 ∧ ∀ n < 24, 0 < n → piTarget^[n] 1 ≠ 1 := by decide

/-- Settles O20: the printed tables are compared with the model's table and index arithmetic entry by entry; what pi does to
a bank follows from where each lane comes from. -/
theorem rhoAndPiFollowTheirTables : Obligations.RhoAndPiFollowTheirTables := by
  refine ⟨fun A x y => ?_, laneAt_piMap_inverse, fun A x y => laneAt_lanesOf _ x y, fun A j => ?_, getElem_piMap_piTarget,
    fun A => laneAt_piMap_inverse A 0 0, piTarget, getElem_piMap_piTarget, piTarget_cycle.1,
    fun n hpos hn => piTarget_cycle.2 n hn hpos⟩
  · rw [laneAt_rho]
    congr 1
    revert x y
    decide
  · rw [getElem_piMap]
    congr 1
    revert j
    decide

/-- R101. -/
theorem laneAt_chi (A : Lanes) (x y : Fin 5) :
    laneAt (chi A) x y = laneAt A x y ^^^ (~~~ laneAt A (x + 1) y &&& laneAt A (x + 2) y) := by
  rw [chi, laneAt_lanesOf]

/-- Chi fixes every bank of equal lanes: a lane and its complement have no bit in common. -/
theorem chi_replicate (v : Lane) : chi (Vector.replicate 25 v) = Vector.replicate 25 v := by
  refine lanes_ext_laneAt fun x y => ?_
  simp [laneAt_chi]

/-- R102: iota adds the round constant to lane `[0,0]`. -/
theorem laneAt_iota (A : Lanes) (i : Fin 24) (x y : Fin 5) :
    laneAt (iota A i) x y = if (x, y) = (0, 0) then laneAt A x y ^^^ roundConstants[i] else laneAt A x y := by
  have hindex : ∀ x y : Fin 5, (x, y) ≠ (0, 0) → 0 ≠ x.val + 5 * y.val := by decide
  split
  case isTrue h =>
    obtain ⟨rfl, rfl⟩ := Prod.mk.inj h
    simp [laneAt, iota]
  case isFalse h => exact Vector.getElem_set_ne _ _ (hindex x y h)

/-- Settles O21: the formulas lane by lane, and the fixed points as banks of equal lanes. -/
theorem chiAndIotaFollowTheirFormulas : Obligations.ChiAndIotaFollowTheirFormulas :=
  ⟨laneAt_chi, chi_replicate _, chi_replicate _, fun A i => by rw [laneAt_iota, if_pos rfl],
    fun A i x y h => by rw [laneAt_iota, if_neg h]⟩

end Sys2Proof.Machine

/-! ### The recurrences behind the tables (R104) -/

namespace Sys2Proof.Machine

theorem lfsrConstants_eq_roundConstants : lfsrConstants 24 0x01#8 = roundConstants.toList := by decide

theorem rhoOffset_of_mem_rhoWalk : ∀ e ∈ rhoWalk 24 0 1 0, rhoOffset e.1.1 e.1.2 = e.2 := by decide

theorem rhoWalk_visits_every_lane :
    ∀ x y : Fin 5, (x, y) ≠ (0, 0) → (x, y) ∈ (rhoWalk 24 0 1 0).map (·.1) := by decide

theorem rhoWalk_visits_no_lane_twice : ((rhoWalk 24 0 1 0).map (·.1)).Nodup := by decide

/-- Settles O22: the two recurrences are run, 24 rounds and 24 steps, and compared with the tables. -/
theorem tablesComeFromTheirRecurrences : Obligations.TablesComeFromTheirRecurrences :=
  ⟨lfsrConstants_eq_roundConstants, rfl, rhoOffset_of_mem_rhoWalk, rhoWalk_visits_every_lane,
    rhoWalk_visits_no_lane_twice⟩

end Sys2Proof.Machine

/-! ### The permutation is a bijection and moves the zero state (R105) -/

namespace Sys2Proof.Machine

theorem finite_lanes : Finite Lanes :=
  have : Finite Lane := Finite.of_equiv _ BitVec.equivFin.symm.toEquiv
  Finite.of_injective laneAt fun _ _ h => lanes_ext_laneAt fun x y => congrFun (congrFun h x) y

/-- There are finitely many banks, so that a map of banks that is injective misses none. -/
theorem bijective_of_injective {f : Lanes → Lanes} (hf : Function.Injective f) : Function.Bijective f :=
  have := finite_lanes
  Finite.injective_iff_bijective.mp hf

/-- R105: one lane of the permuted zero state; the kernel runs the 24 rounds. -/
theorem laneAt_keccakF_zero : laneAt (keccakF (Vector.replicate 25 0#64)) 0 0 = 0xF1258F7940E1DDE7#64 := by
  decide +kernel

/-- Settles O23: each step, the round and the 24 rounds are injective maps of the finitely many banks. -/
theorem keccakFIsABijection : Obligations.KeccakFIsABijection :=
  ⟨bijective_of_injective theta_injective, bijective_of_injective rho_injective, bijective_of_injective piMap_injective,
    bijective_of_injective chi_injective, fun i => bijective_of_injective (iota_injective i),
    fun i => bijective_of_injective (keccakRound_injective i), bijective_of_injective keccakF_injective,
    laneAt_keccakF_zero⟩

end Sys2Proof.Machine

/-! ### The round sequencer runs the whole permutation (R113, R114) -/

namespace Sys2Proof.Machine

/-- The first `n` rounds of a permutation (R96). -/
def firstRounds (n : Nat) (A : Lanes) : Lanes := ((List.finRange 24).take n).foldl keccakRound A

theorem firstRounds_succ {n : Nat} (hn : n < 24) (A : Lanes) :
    firstRounds (n + 1) A = keccakRound (firstRounds n A) ⟨n, hn⟩ := by
  rw [firstRounds, List.take_succ_eq_append_getElem (by simpa using hn), List.foldl_append]
  simp [firstRounds]

theorem firstRounds_all (A : Lanes) : firstRounds 24 A = keccakF A := by
  rw [firstRounds, keccakF, List.take_of_length_le (by simp)]

/-- R113: the engine inside a permutation of a bank, with the first `n` rounds done. -/
def afterRounds (b : Bank) (s : State) (n : Nat) : State :=
  { s.withBank b (firstRounds n (s.bank b)) with rnd := BitVec.ofNat 5 n }

theorem permStart_eq_afterRounds (b : Bank) (s : State) : permStart s = afterRounds b s 0 := by
  cases b <;> rfl

theorem afterRounds_bank (b : Bank) (s : State) (n : Nat) : (afterRounds b s n).bank b = firstRounds n (s.bank b) := by
  cases b <;> rfl

theorem afterRounds_withBank (b : Bank) (s : State) (n : Nat) (X : Lanes) :
    (afterRounds b s n).withBank b X = { s.withBank b X with rnd := BitVec.ofNat 5 n } := by
  cases b <;> rfl

/-- R113: each `PermStep` does the next round, and the 24th ends the permutation. -/
theorem permStep_afterRounds (b : Bank) (s : State) {n : Nat} (hn : n < 24) :
    permStep b (afterRounds b s n) =
      if n = 23 then some (permuteBank b s, true) else some (afterRounds b s (n + 1), false) := by
  have hrnd : (afterRounds b s n).rnd = BitVec.ofNat 5 n := rfl
  have htoNat : (BitVec.ofNat 5 n).toNat = n := Nat.mod_eq_of_lt (by omega)
  have hlast : BitVec.ofNat 5 n = 23 ↔ n = 23 := by
    rw [← BitVec.toNat_inj, htoNat]
    rfl
  have hnext : BitVec.ofNat 5 n + 1 = BitVec.ofNat 5 (n + 1) := (BitVec.ofNat_add n 1).symm
  simp only [permStep, hrnd, htoNat, hn, hlast, afterRounds_bank, afterRounds_withBank, ← firstRounds_succ hn, hnext,
    dite_true]
  split
  case isTrue h =>
    subst h
    rw [firstRounds_all, permuteBank]
  case isFalse => rfl

/-- R113: with `n` rounds done, `k` more steps end the permutation exactly when they reach the 24th round. -/
theorem permRun_afterRounds (b : Bank) (s : State) (k : Nat) {n : Nat} (hn : n < 24) :
    permRun b k (afterRounds b s n) = if n + k < 24 then none else some (permuteBank b s) := by
  induction k generalizing n with
  | zero => rw [permRun, if_pos (show n + 0 < 24 from hn)]
  | succ k ih =>
    by_cases hlast : n = 23
    · subst hlast
      rw [permRun, permStep_afterRounds b s hn, if_pos rfl, if_neg (by omega)]
    · have hnext : n + (k + 1) = n + 1 + k := by omega
      rw [permRun, permStep_afterRounds b s hn, if_neg hlast, hnext]
      exact ih (by omega)

/-- Settles O24: from `PermStart` no round is done, so the 24th step is the last. -/
theorem sequencerComputesTheWholePermutation : Obligations.SequencerComputesTheWholePermutation := by
  intro b s
  rw [permStart_eq_afterRounds b s]
  refine ⟨?_, fun n hn => ?_⟩
  · rw [permRun_afterRounds b s 24 (by omega), if_neg (by omega)]
    rfl
  · rw [permRun_afterRounds b s n (by omega), if_pos (by omega)]

end Sys2Proof.Machine

/-! ### `Exec(w)`, check by check (R107) -/

namespace Sys2Proof.Machine

/-- R107, lines 2 to 7: the command an opcode stands for, with its operand taken from the word. In a legal word the opcode
that is none of the first three is DIGEST's. -/
def commandOf (op : BitVec 4) (w : Word) : Instr :=
  if op = 0x1 then .init
  else if op = 0x4 then .wipe
  else if op = 0x2 then .absorb (w.extractLsb' 0 8)
  else digestInstr (if w.getLsbD 8 then .legacyKeccak else .standard)

theorem opcode_encode (i : Instr) : (encode i).extractLsb' 28 4 = i.fields.opcode :=
  congrArg Fields.opcode (ofWord_toWord i.fields)

theorem data_encode (i : Instr) : (encode i).extractLsb' 0 8 = i.fields.data :=
  congrArg Fields.data (ofWord_toWord i.fields)

theorem commandOf_encode (i : Instr) : commandOf i.fields.opcode (encode i) = i := by
  cases i with
  | init => rfl
  | absorb d => exact congrArg Instr.absorb (data_encode (.absorb d))
  | digestSha3 => rfl
  | digestKeccak => rfl
  | wipe => rfl

/-- A legal word runs the command that R107 reads from it. -/
theorem execWord_of_opcode {w : Word} {op : BitVec 4} (hw : legal w = true) (hop : w.extractLsb' 28 4 = op) (s : State) :
    execWord w s = exec (commandOf op w) s := by
  obtain ⟨i, rfl⟩ := exists_encode_of_legal hw
  rw [execWord_legal (decode_encode i), ← hop, opcode_encode, commandOf_encode]

/-- Settles O30: a legal word runs the command of its opcode, and a command's own check of `LIVE` is R107's line 5. -/
theorem execFollowsItsCheckOrder : Obligations.ExecFollowsItsCheckOrder := by
  intro w s
  refine ⟨fun hw => ?_, fun hw hop => execWord_of_opcode hw hop s, fun hw hop => execWord_of_opcode hw hop s,
    fun hw hop hl => ?_, fun hw hop _ => execWord_of_opcode hw hop s, fun hw hop _ => execWord_of_opcode hw hop s,
    fun hp => execWord_completes hp w⟩
  · obtain ⟨e, he⟩ := decode_error_of_not_legal hw
    exact execWord_illegal he s
  · rcases hop with hop | hop
    · exact (execWord_of_opcode hw hop s).trans (exec_absorb_dead hl _)
    · exact (execWord_of_opcode hw hop s).trans (exec_digest_dead hl _)

end Sys2Proof.Machine

/-! ### Commands in a legal order are never refused (R110) -/

namespace Sys2Proof.Machine

theorem usedInOrder_absorb (live : Bool) (d : Byte) (is : List Instr) :
    usedInOrder live (.absorb d :: is) = true ↔ live = true ∧ usedInOrder live is = true :=
  Bool.and_eq_true_iff

theorem usedInOrder_digest (live : Bool) (m : Mode) (is : List Instr) :
    usedInOrder live (digestInstr m :: is) = true ↔ live = true ∧ usedInOrder live is = true := by
  cases m <;> exact Bool.and_eq_true_iff

/-- The first command of a legal order is not refused, and leaves an engine for which the rest is in a legal order. -/
theorem exec_head_of_usedInOrder {s : State} {i : Instr} {is : List Instr} (hp : s.pos.toNat < 136)
    (h : usedInOrder s.live (i :: is) = true) :
    ∃ t, exec i s = .next t ∧ t.uaw = s.uaw ∧ t.ill = s.ill ∧ usedInOrder t.live is = true := by
  have hdigest : ∀ m, usedInOrder s.live (digestInstr m :: is) = true →
      ∃ t, exec (digestInstr m) s = .next t ∧ t.uaw = s.uaw ∧ t.ill = s.ill ∧ usedInOrder t.live is = true := by
    intro m hm
    obtain ⟨hl, his⟩ := (usedInOrder_digest _ m is).mp hm
    exact ⟨_, exec_digest_live hl hp m, rfl, rfl, his⟩
  cases i with
  | init => exact ⟨_, exec_init s, rfl, rfl, h⟩
  | absorb d =>
    obtain ⟨hl, his⟩ := (usedInOrder_absorb _ d is).mp h
    exact ⟨_, exec_absorb_live hl hp d, by simp, by simp, by simpa using his⟩
  | digestSha3 => exact hdigest .standard h
  | digestKeccak => exact hdigest .legacyKeccak h
  | wipe => exact ⟨_, exec_wipe s, rfl, rfl, h⟩

/-- R110: commands in an order legal for the engine as it is run to the end without a fault. -/
theorem execAll_of_usedInOrder (is : List Instr) {s : State} (hp : s.pos.toNat < 136)
    (h : usedInOrder s.live is = true) :
    ∃ t, execAll is s = .next t ∧ t.uaw = s.uaw ∧ t.ill = s.ill ∧ t.pos.toNat < 136 := by
  induction is generalizing s with
  | nil => exact ⟨s, rfl, rfl, rfl, hp⟩
  | cons i is ih =>
    obtain ⟨u, hu, huaw, hill, his⟩ := exec_head_of_usedInOrder hp h
    obtain ⟨t, ht, htuaw, htill, hpt⟩ := ih (exec_keeps_cursor hp hu) his
    exact ⟨t, by rw [execAll, hu]; exact ht, htuaw.trans huaw, htill.trans hill, hpt⟩

/-- Settles O46: the command in front is not refused, and INIT makes an engine from which the rest runs. -/
theorem commandsInOrderAreNeverRefused : Obligations.CommandsInOrderAreNeverRefused := by
  refine ⟨fun is s h => ?_, fun is s => execAll_of_usedInOrder is⟩
  have hp : (clearContext true s).pos.toNat < 136 := (by decide : (0 : BitVec 8).toNat < 136)
  obtain ⟨t, ht, huaw, hill, -⟩ := execAll_of_usedInOrder is hp h
  exact ⟨t, by rw [execAll, exec_init]; exact ht, huaw, hill⟩

end Sys2Proof.Machine

/-! ### The sticky flags of the engine's two exceptions (R119, R120) -/

namespace Sys2Proof.Machine

/-- What a command does to the sticky flags: it leaves `ILL`, and leaves `UAW` or, where it is refused, sets it. -/
theorem exec_sticky {s t : State} {i : Instr} (h : exec i s = .next t) :
    t.ill = s.ill ∧ (t.uaw = s.uaw ∨ t.uaw = true) := by
  rcases exec_next h with ⟨rfl, rfl⟩ | ⟨rfl, rfl⟩ | ⟨d, rfl, -, rfl⟩ | ⟨m, rfl, -, rfl⟩ | ⟨d, rfl, -, hp, rfl⟩ |
    ⟨m, rfl, -, hp, rfl⟩
  · exact ⟨clearContext_ill .., .inl (clearContext_uaw ..)⟩
  · exact ⟨clearContext_ill .., .inl (clearContext_uaw ..)⟩
  · exact ⟨rfl, .inr rfl⟩
  · exact ⟨rfl, .inr rfl⟩
  · exact ⟨absorbAt_ill .., .inl (absorbAt_uaw ..)⟩
  · exact ⟨digestAt_ill .., .inl (digestAt_uaw ..)⟩

/-- Settles O31: the step of an illegal word, the commands' rule for `ILL`, and R22 for its clearing. -/
theorem illegalWordSetsOnlyIll : Obligations.IllegalWordSetsOnlyIll := by
  refine ⟨fun s w rest => step_illegal, fun s t i h => (exec_sticky h).1, fun s t h => ?_⟩
  obtain ⟨-, -, hclear, -⟩ := stickyFlagsAreSetAndClearedOnlyAsStated s t h
  exact hclear

/-- Settles O32: the step of a refused command, the commands' rule for `UAW`, R22 for its clearing, and INIT and WIPE as
cleared contexts. -/
theorem useWithoutAContextSetsOnlyUaw : Obligations.UseWithoutAContextSetsOnlyUaw := by
  refine ⟨fun s i rest => step_refused, fun s t i h hs => ?_, fun s t h => ?_, fun s => ?_⟩
  · obtain ⟨-, hsame | hset⟩ := exec_sticky h
    · exact hsame.trans hs
    · exact hset
  · obtain ⟨-, -, -, hclear⟩ := stickyFlagsAreSetAndClearedOnlyAsStated s t h
    exact hclear
  · exact ⟨⟨_, exec_init s, clearContext_uaw ..⟩, _, exec_wipe s, clearContext_uaw ..⟩

end Sys2Proof.Machine


/-! ### Hardware reset, and how WIPE and INIT differ from it (R133, R134, R146) -/

namespace Sys2Proof.Machine

/-- R133, R146: a reset access makes every register of the engine new, whatever it held, `rnd` included. -/
theorem step_reset {s : State} {rest : List Access} (h : s.script = .reset :: rest) :
    step s = .next { State.reset with script := rest, responses := s.responses } := by
  rw [step_cons h]
  rfl

/-- R133: of the state after reset the host sees the two constants of the engine, and zero in every other register. -/
theorem readReg_reset (r : Reg) :
    readReg State.reset r =
      match r with
      | .blockSize  => 0x00000088#32
      | .digestSize => 0x00000020#32
      | _           => 0x00000000#32 := by
  cases r with
  | dout j => exact doutWord_zeroDigest j
  | cmd | status | blockSize | digestSize => decide

/-- R133: a step that clears a sticky flag takes a reset access. -/
theorem access_eq_reset_of_sticky_cleared {s t : State} {a : Access} {rest : List Access} (hs : s.script = a :: rest)
    (h : step s = .next t) (hclear : (s.ill = true ∧ t.ill = false) ∨ (s.uaw = true ∧ t.uaw = false)) :
    a = .reset := by
  obtain ⟨-, -, hill, huaw⟩ := stickyFlagsAreSetAndClearedOnlyAsStated s t h
  have hreset : ∃ rest', s.script = .reset :: rest' := by
    rcases hclear with ⟨hset, hclr⟩ | ⟨hset, hclr⟩
    · exact hill hset hclr
    · exact huaw hset hclr
  obtain ⟨rest', hs'⟩ := hreset
  exact List.head_eq_of_cons_eq (hs.symm.trans hs')

/-- R134: a cleared context is the reset engine but for the sticky flags, which stay, and `LIVE`, which is as given. -/
theorem clearContext_eq_hardReset_with (l : Bool) (s : State) :
    clearContext l s = { hardReset s with ill := s.ill, uaw := s.uaw, live := l } := rfl

/-- Settles O1: the step of a reset access, the reset state's registers as they are defined and as the host reads them,
and R22 for the clearing of the sticky flags. -/
theorem hardwareResetGivesTheResetState : Obligations.HardwareResetGivesTheResetState := by
  refine ⟨fun s rest => step_reset, ⟨rfl, rfl, rfl, rfl, rfl, rfl, rfl, rfl, rfl⟩, ?_,
    fun s t a rest => access_eq_reset_of_sticky_cleared⟩
  exact ⟨readReg_reset .status, readReg_reset .blockSize, readReg_reset .digestSize, readReg_reset .cmd,
    fun j => readReg_reset (.dout j)⟩

/-- Settles O5: hardware reset is the reset state with the host's side kept, and WIPE and INIT clear the context, which
gives the same but for the sticky flags and `LIVE`. -/
theorem resetWipeAndInitCompared : Obligations.ResetWipeAndInitCompared := by
  refine fun s => ⟨rfl, ?_, ?_⟩
  · rw [exec_wipe, clearContext_eq_hardReset_with]
    rfl
  · rw [exec_init, clearContext_eq_hardReset_with]

end Sys2Proof.Machine

/-! ### Why a word is no command (R57), and the printed words -/

namespace Sys2Proof.Machine

/-- R50: no command has a reserved bit set, whatever its other fields are. -/
theorem decode_of_rsv_ne_zero {w : Word} (hrsv : (Fields.ofWord w).rsv ≠ 0) : decode w = .error .reservedBits :=
  if_pos hrsv

theorem decode_of_opcode_absorb {w : Word} (hrsv : (Fields.ofWord w).rsv = 0) (hop : (Fields.ofWord w).opcode = 0x2) :
    decode w = decodeAbsorb (Fields.ofWord w) := by
  simp [decode, hrsv, hop]

/-- R53: ABSORB has no use for the mode bit. -/
theorem decodeAbsorb_of_mode_ne_zero {f : Fields} (hmode : f.mode ≠ 0) : decodeAbsorb f = .error .unusedMode :=
  if_pos hmode

/-- R51: the opcodes that no command has are reserved. -/
theorem decode_of_opcode_unknown {w : Word} (hrsv : (Fields.ofWord w).rsv = 0)
    (hop : (Fields.ofWord w).opcodeKnown = false) : decode w = .error .reservedOpcode := by
  simp only [Fields.opcodeKnown, Bool.or_eq_false_iff, beq_eq_false_iff_ne] at hop
  obtain ⟨⟨⟨h1, h2⟩, h3⟩, h4⟩ := hop
  exact (if_neg (not_not.mpr hrsv)).trans <| (if_neg h1).trans <| (if_neg h2).trans <| (if_neg h3).trans (if_neg h4)

/-- Settles O29: the legal words are the commands' own, and each illegal word has one field that its opcode does not
allow. -/
theorem sampleWordsDecodeAsPrinted : Obligations.SampleWordsDecodeAsPrinted :=
  ⟨decode_encode .init, decode_encode (.absorb 0x61), decode_encode .digestSha3, decode_encode .digestKeccak,
    decode_encode .wipe, (decode_of_opcode_absorb (by decide) (by decide)).trans (decodeAbsorb_of_mode_ne_zero (by decide)),
    decode_of_rsv_ne_zero (by decide), decode_of_opcode_unknown (by decide) (by decide)⟩

end Sys2Proof.Machine

/-! ### A live cursor outside the rate part (U4) -/

namespace Sys2Proof.Machine

/-- Settles O35: the hash commands stop at their guard, and INIT and WIPE, which have none, clear the context. -/
theorem unreachableCursorStopsHashCommands : Obligations.UnreachableCursorStopsHashCommands := by
  intro s hl hp
  have hstuck : ¬ s.pos.toNat < 136 := not_lt.mpr hp
  exact ⟨exec_absorb_stuck hl hstuck, exec_digest_stuck hl hstuck, ⟨_, exec_init s⟩, _, exec_wipe s⟩

end Sys2Proof.Machine
